-- ==== Sys2Proof/Word.lean ====
section
/-! DEFINITION. The word types of the machine: the byte and the 16-bit word (10_state R20, R24, R25), and the fields of an
instruction word (30_encoding R71). -/

namespace Sys2Proof

/-- One byte: a cell of memory, a general register, a timer (20_memory R50, 10_state R21, R28). -/
abbrev Byte := BitVec 8

/-- A 16-bit word: I, PC, a stack entry, the opcode latch, an instruction (10_state R20, 30_encoding R70). -/
abbrev Word := BitVec 16

/-- The number of a general register, the X or Y field (30_encoding R71, 10_state R21). -/
abbrev Reg := BitVec 4

/-- A four-bit count or index: the N field, a key number (30_encoding R71, 45_timers_keys R210). -/
abbrev Nibble := BitVec 4

/-- The NNN field, a byte address of the 4096-byte space (30_encoding R73). -/
abbrev Addr := BitVec 12

/-- Register VF, index 0xF (10_state R22). -/
abbrev vF : Reg := 0xF#4

end Sys2Proof
end

