-- ==== Sys2Proof/Syntax.lean ====
section
/-! DEFINITION. The 35 instruction kinds, one constructor per row of spec/opcode_table.json, in the table's order (30_encoding R75, R81).
Operand fields are those of R71. The fields the spec decodes and then ignores (z of CLS and RET, R77; Y of SHR and SHL, R72) are kept, so that
an instruction has exactly one word (log 15). -/

namespace Sys2Proof

/-- An instruction of the CHIP-8 interpreter core (30_encoding R75). -/
inductive Instr where
  | sys (nnn : Addr)                      -- 0NNN  SYS addr
  | cls (z : Nibble)                      -- 0zE0  CLS
  | ret (z : Nibble)                      -- 0zEE  RET
  | jp (nnn : Addr)                       -- 1NNN  JP addr
  | call (nnn : Addr)                     -- 2NNN  CALL addr
  | seVxNn (x : Reg) (nn : Byte)          -- 3XNN  SE Vx, byte
  | sneVxNn (x : Reg) (nn : Byte)         -- 4XNN  SNE Vx, byte
  | seVxVy (x y : Reg)                    -- 5XY0  SE Vx, Vy
  | ldVxNn (x : Reg) (nn : Byte)          -- 6XNN  LD Vx, byte
  | addVxNn (x : Reg) (nn : Byte)         -- 7XNN  ADD Vx, byte
  | ldVxVy (x y : Reg)                    -- 8XY0  LD Vx, Vy
  | orVxVy (x y : Reg)                    -- 8XY1  OR Vx, Vy
  | andVxVy (x y : Reg)                   -- 8XY2  AND Vx, Vy
  | xorVxVy (x y : Reg)                   -- 8XY3  XOR Vx, Vy
  | addVxVy (x y : Reg)                   -- 8XY4  ADD Vx, Vy
  | subVxVy (x y : Reg)                   -- 8XY5  SUB Vx, Vy
  | shrVx (x y : Reg)                     -- 8XY6  SHR Vx
  | subnVxVy (x y : Reg)                  -- 8XY7  SUBN Vx, Vy
  | shlVx (x y : Reg)                     -- 8XYE  SHL Vx
  | sneVxVy (x y : Reg)                   -- 9XY0  SNE Vx, Vy
  | ldI (nnn : Addr)                      -- ANNN  LD I, addr
  | jpV0 (nnn : Addr)                     -- BNNN  JP V0, addr
  | rnd (x : Reg) (nn : Byte)             -- CXNN  RND Vx, byte
  | drw (x y : Reg) (n : Nibble)          -- DXYN  DRW Vx, Vy, nibble
  | skp (x : Reg)                         -- EX9E  SKP Vx
  | sknp (x : Reg)                        -- EXA1  SKNP Vx
  | ldVxDt (x : Reg)                      -- FX07  LD Vx, DT
  | ldVxK (x : Reg)                       -- FX0A  LD Vx, K
  | ldDtVx (x : Reg)                      -- FX15  LD DT, Vx
  | ldStVx (x : Reg)                      -- FX18  LD ST, Vx
  | addIVx (x : Reg)                      -- FX1E  ADD I, Vx
  | ldFVx (x : Reg)                       -- FX29  LD F, Vx
  | ldBVx (x : Reg)                       -- FX33  LD B, Vx
  | ldMemVx (x : Reg)                     -- FX55  LD [I], Vx
  | ldVxMem (x : Reg)                     -- FX65  LD Vx, [I]
  deriving DecidableEq, Repr

end Sys2Proof
end

