-- ==== Sys2Proof/WellFormed.lean ====
section
/-! DEFINITION. Which terms of Instr stand for a word of the machine. The operand types bound every field; the one check left is that a
SYS address whose low byte is 0xE0 or 0xEE is no SYS: those words are CLS and RET (30_encoding R77). -/

namespace Sys2Proof

/-- True iff some word decodes to this instruction (30_encoding R74, R77). -/
def Instr.wf : Instr → Bool
  | .sys nnn => nnn.setWidth 8 != 0xE0#8 && nnn.setWidth 8 != 0xEE#8
  | .cls _ | .ret _ | .jp _ | .call _ | .seVxNn _ _ | .sneVxNn _ _ | .seVxVy _ _ | .ldVxNn _ _ | .addVxNn _ _
  | .ldVxVy _ _ | .orVxVy _ _ | .andVxVy _ _ | .xorVxVy _ _ | .addVxVy _ _ | .subVxVy _ _ | .shrVx _ _ | .subnVxVy _ _
  | .shlVx _ _ | .sneVxVy _ _ | .ldI _ | .jpV0 _ | .rnd _ _ | .drw _ _ _ | .skp _ | .sknp _ | .ldVxDt _ | .ldVxK _
  | .ldDtVx _ | .ldStVx _ | .addIVx _ | .ldFVx _ | .ldBVx _ | .ldMemVx _ | .ldVxMem _ => true

end Sys2Proof
end

