-- ==== Sys2Proof/Decode.lean ====
section
/-! DEFINITION. Decoding and encoding (30_encoding R70 to R78): the three mask tiers tried in order, the operand fields pulled out once, the
encoder from the same table, and the machine-readable table's own numbering of an instruction's bits. -/

namespace Sys2Proof

/-! ## Operand fields (30_encoding R71) -/

/-- X, `op[11:8]`; also the ignored z of CLS and RET (30_encoding R71, R72). -/
def fieldX (w : Word) : Nibble := w.extractLsb' 8 4

/-- Y, `op[7:4]` (30_encoding R71). -/
def fieldY (w : Word) : Nibble := w.extractLsb' 4 4

/-- N, `op[3:0]` (30_encoding R71). -/
def fieldN (w : Word) : Nibble := w.extractLsb' 0 4

/-- NN, `op[7:0]` (30_encoding R71). -/
def fieldNN (w : Word) : Byte := w.extractLsb' 0 8

/-- NNN, `op[11:0]` (30_encoding R71). -/
def fieldNNN (w : Word) : Addr := w.extractLsb' 0 12

/-! ## Decode (30_encoding R74) -/

/-- What the decoder reads from a word: one of the 35 kinds, or the rejection UNKNOWN with the word (30_encoding R74, R78). -/
inductive Decoded where
  | instr (i : Instr)
  | unknown (w : Word)
  deriving DecidableEq, Repr

/-- What the decoder reads from bytes: a decoded word and the bytes left over, or the rejection of fewer bytes than an instruction has. -/
inductive DecodedBytes where
  | word (d : Decoded) (rest : List Byte)
  | truncated (bytes : List Byte)
  deriving DecidableEq, Repr

/-- Tier 1: exact match on `op & 0xF0FF` (30_encoding R75). -/
def tier1 (w : Word) : Option Instr :=
  match w &&& 0xF0FF#16 with
  | 0x00E0#16 => some (.cls (fieldX w))
  | 0x00EE#16 => some (.ret (fieldX w))
  | 0xE09E#16 => some (.skp (fieldX w))
  | 0xE0A1#16 => some (.sknp (fieldX w))
  | 0xF007#16 => some (.ldVxDt (fieldX w))
  | 0xF00A#16 => some (.ldVxK (fieldX w))
  | 0xF015#16 => some (.ldDtVx (fieldX w))
  | 0xF018#16 => some (.ldStVx (fieldX w))
  | 0xF01E#16 => some (.addIVx (fieldX w))
  | 0xF029#16 => some (.ldFVx (fieldX w))
  | 0xF033#16 => some (.ldBVx (fieldX w))
  | 0xF055#16 => some (.ldMemVx (fieldX w))
  | 0xF065#16 => some (.ldVxMem (fieldX w))
  | _ => none

/-- Tier 2: exact match on `op & 0xF00F` (30_encoding R75). -/
def tier2 (w : Word) : Option Instr :=
  match w &&& 0xF00F#16 with
  | 0x5000#16 => some (.seVxVy (fieldX w) (fieldY w))
  | 0x8000#16 => some (.ldVxVy (fieldX w) (fieldY w))
  | 0x8001#16 => some (.orVxVy (fieldX w) (fieldY w))
  | 0x8002#16 => some (.andVxVy (fieldX w) (fieldY w))
  | 0x8003#16 => some (.xorVxVy (fieldX w) (fieldY w))
  | 0x8004#16 => some (.addVxVy (fieldX w) (fieldY w))
  | 0x8005#16 => some (.subVxVy (fieldX w) (fieldY w))
  | 0x8006#16 => some (.shrVx (fieldX w) (fieldY w))
  | 0x8007#16 => some (.subnVxVy (fieldX w) (fieldY w))
  | 0x800E#16 => some (.shlVx (fieldX w) (fieldY w))
  | 0x9000#16 => some (.sneVxVy (fieldX w) (fieldY w))
  | _ => none

/-- Tier 3: exact match on `op & 0xF000` (30_encoding R75). -/
def tier3 (w : Word) : Option Instr :=
  match w &&& 0xF000#16 with
  | 0x0000#16 => some (.sys (fieldNNN w))
  | 0x1000#16 => some (.jp (fieldNNN w))
  | 0x2000#16 => some (.call (fieldNNN w))
  | 0x3000#16 => some (.seVxNn (fieldX w) (fieldNN w))
  | 0x4000#16 => some (.sneVxNn (fieldX w) (fieldNN w))
  | 0x6000#16 => some (.ldVxNn (fieldX w) (fieldNN w))
  | 0x7000#16 => some (.addVxNn (fieldX w) (fieldNN w))
  | 0xA000#16 => some (.ldI (fieldNNN w))
  | 0xB000#16 => some (.jpV0 (fieldNNN w))
  | 0xC000#16 => some (.rnd (fieldX w) (fieldNN w))
  | 0xD000#16 => some (.drw (fieldX w) (fieldY w) (fieldN w))
  | _ => none

/-- The decoder on a word: the tiers in order, the first match wins, and a word that matches none is UNKNOWN (30_encoding R74, R76, R78). -/
def decode (w : Word) : Decoded :=
  match tier1 w with
  | some i => .instr i
  | none =>
    match tier2 w with
    | some i => .instr i
    | none =>
      match tier3 w with
      | some i => .instr i
      | none => .unknown w

/-- The 16-bit word of two bytes, the first of them the more significant (20_memory R52). -/
def wordOfBytes (hi lo : Byte) : Word := hi ++ lo

/-- The byte at the lower address, `op[15:8]` (20_memory R52). -/
def highByte (w : Word) : Byte := w.extractLsb' 8 8

/-- The byte at the higher address, `op[7:0]` (20_memory R52). -/
def lowByte (w : Word) : Byte := w.extractLsb' 0 8

/-- The decoder on any bytes: the instruction or the named rejection, and the bytes left over (30_encoding R70, R76). -/
def decodeBytes : List Byte → DecodedBytes
  | hi :: lo :: rest => .word (decode (wordOfBytes hi lo)) rest
  | short => .truncated short

/-! ## Encode (30_encoding R72, R75) -/

/-- Format A: `cccc nnnn nnnn nnnn` (30_encoding R72). -/
def formatA (c : Nibble) (nnn : Addr) : Word := c ++ nnn

/-- Formats XK, X and Z: `cccc xxxx kkkk kkkk`, the low byte an immediate or a function byte (30_encoding R72). -/
def formatXK (c : Nibble) (x : Nibble) (k : Byte) : Word := c ++ x ++ k

/-- Formats XY and XYN: `cccc xxxx yyyy nnnn`, the low nibble a count or a function nibble (30_encoding R72). -/
def formatXYN (c : Nibble) (x y : Reg) (n : Nibble) : Word := c ++ x ++ y ++ n

/-- The word of an instruction (30_encoding R72, R75). -/
def encode : Instr → Word
  | .sys nnn => formatA 0x0#4 nnn
  | .cls z => formatXK 0x0#4 z 0xE0#8
  | .ret z => formatXK 0x0#4 z 0xEE#8
  | .jp nnn => formatA 0x1#4 nnn
  | .call nnn => formatA 0x2#4 nnn
  | .seVxNn x nn => formatXK 0x3#4 x nn
  | .sneVxNn x nn => formatXK 0x4#4 x nn
  | .seVxVy x y => formatXYN 0x5#4 x y 0x0#4
  | .ldVxNn x nn => formatXK 0x6#4 x nn
  | .addVxNn x nn => formatXK 0x7#4 x nn
  | .ldVxVy x y => formatXYN 0x8#4 x y 0x0#4
  | .orVxVy x y => formatXYN 0x8#4 x y 0x1#4
  | .andVxVy x y => formatXYN 0x8#4 x y 0x2#4
  | .xorVxVy x y => formatXYN 0x8#4 x y 0x3#4
  | .addVxVy x y => formatXYN 0x8#4 x y 0x4#4
  | .subVxVy x y => formatXYN 0x8#4 x y 0x5#4
  | .shrVx x y => formatXYN 0x8#4 x y 0x6#4
  | .subnVxVy x y => formatXYN 0x8#4 x y 0x7#4
  | .shlVx x y => formatXYN 0x8#4 x y 0xE#4
  | .sneVxVy x y => formatXYN 0x9#4 x y 0x0#4
  | .ldI nnn => formatA 0xA#4 nnn
  | .jpV0 nnn => formatA 0xB#4 nnn
  | .rnd x nn => formatXK 0xC#4 x nn
  | .drw x y n => formatXYN 0xD#4 x y n
  | .skp x => formatXK 0xE#4 x 0x9E#8
  | .sknp x => formatXK 0xE#4 x 0xA1#8
  | .ldVxDt x => formatXK 0xF#4 x 0x07#8
  | .ldVxK x => formatXK 0xF#4 x 0x0A#8
  | .ldDtVx x => formatXK 0xF#4 x 0x15#8
  | .ldStVx x => formatXK 0xF#4 x 0x18#8
  | .addIVx x => formatXK 0xF#4 x 0x1E#8
  | .ldFVx x => formatXK 0xF#4 x 0x29#8
  | .ldBVx x => formatXK 0xF#4 x 0x33#8
  | .ldMemVx x => formatXK 0xF#4 x 0x55#8
  | .ldVxMem x => formatXK 0xF#4 x 0x65#8

/-- The two bytes of an instruction as the hardware stores them, big-endian (20_memory R52). -/
def encodeBytes (i : Instr) : List Byte := [highByte (encode i), lowByte (encode i)]

/-! ## The opcode table's numbering -/

/-- The word whose bits are `w` as the opcode table numbers them (bit 0 least significant), every bit from `nbits` up being 0. -/
def tableWord (nbits w : Nat) : Word := BitVec.ofNat 16 (w % 2 ^ nbits)

/-- The instruction this decoder reads from the table's word, laid out in memory order first. -/
def decodeTableWord (nbits w : Nat) : Option Instr :=
  match decodeBytes [highByte (tableWord nbits w), lowByte (tableWord nbits w)] with
  | .word (.instr i) _ => some i
  | .word (.unknown _) _ => none
  | .truncated _ => none

end Sys2Proof
end

