-- ==== Sys2Proof/Config.lean ====
section
/-! DEFINITION. What this hardware fixes (00_scope R6) and the one free value of the model, the random byte (42_alu R152).
The two arguments of the model that R6 leaves to a run, LOAD_STORE_INCREMENTS_I and FONT, are the field `params` of State. -/

namespace Sys2Proof

/-- `MEM_SIZE`, 4096 bytes (00_scope R6, 20_memory R50). -/
@[simp] abbrev Config.memSize : Nat := 4096

/-- `ADDR_MAX`, 0xFFF (00_scope R6). -/
@[simp] abbrev Config.addrMax : Nat := 0xFFF

/-- `PROGRAM_BASE`, 0x200 (00_scope R6). -/
@[simp] abbrev Config.programBase : Nat := 0x200

/-- `ROM_MAX`, 4096 - 0x200 = 3584 bytes (00_scope R6). -/
@[simp] abbrev Config.romMax : Nat := Config.memSize - Config.programBase

/-- `FONT_BASE`, 0x000 (00_scope R6). -/
@[simp] abbrev Config.fontBase : Nat := 0x000

/-- `FONT_GLYPHS` x `GLYPH_BYTES`, 16 x 5 = 80 bytes (00_scope R6). -/
@[simp] abbrev Config.fontSize : Nat := 80

/-- `STACK_DEPTH`, 16 entries (00_scope R6, 10_state R26). -/
@[simp] abbrev Config.stackDepth : Nat := 16

/-- `FB_W`, 64 columns (00_scope R6; log 11). -/
@[simp] abbrev Config.fbW : Nat := 64

/-- `FB_H`, 32 rows (00_scope R6; log 11). -/
@[simp] abbrev Config.fbH : Nat := 32

/-- `RESET_PC`, 0x200 (00_scope R6, 10_state R33). -/
@[simp] abbrev Config.resetPc : Word := 0x200#16

/-- The free value of the model: the byte the random source yields on draw number `n`, where no harness has fixed it
(42_alu R152: proofs must hold for every draw). It has no body, so nothing can be proved of it. DESIGN CHOICE, log 5. -/
opaque Config.randomByte : Nat → Byte

end Sys2Proof
end

