-- ==== Sys2Proof/Machine/State.lean ====
section
/-! DEFINITION. The machine's state as plain data, the reasons a step can stop, and the state after reset (10_state; 60_exceptions R230, R248).
The first eight fields of State are exactly the tuple of 10_state R20; the rest are the external state of R30, the arguments of 00_scope R6, and
the model's own record of the host interface. -/

namespace Sys2Proof.Machine

/-- Memory: the (address, byte) pairs that differ from what an unlisted address reads as, addresses strictly rising (20_memory R50). -/
abbrev Memory := List Host.Cell

/-- The frame buffer: 32 rows of 64 one-bit pixels, row y, column x (10_state R30, 44_display R190). -/
abbrev Frame := Vector (Vector Bool Config.fbW) Config.fbH

/-- READ, WRITE or FETCH, the kind of an out-of-range access (20_memory R51). -/
inductive AccessKind where
  | fetch
  | read
  | write
  deriving DecidableEq, Repr

/-- The fatal outcomes of a step with the info each records (60_exceptions R230). After one of them the host holds `Machine.afterFatal`.
Each is safe: the spec names the outcome, and the model stops where a host could go on (D35, log 8). -/
inductive Fault where
  /-- Raised by 2NNN when 16 entries are on the stack; `pc` is the address of the 2NNN (40_flow R105). Safe. -/
  | stackOverflow (pc : Word)
  /-- Raised by 00EE when the stack is empty; `pc` is the address of the 00EE (40_flow R103). Safe. -/
  | stackUnderflow (pc : Word)
  /-- Raised by a fetch, DXYN, FX33, FX55 or FX65 that would pass 0xFFF; `addr` is the lowest failing address (20_memory R51). Safe. -/
  | addressOutOfRange (addr : Word) (kind : AccessKind) (pc : Word)
  /-- Raised by the fetch at an odd PC whose two bytes are in range (20_memory R53). Safe. -/
  | misalignedPc (pc : Word)
  deriving DecidableEq, Repr

/-- What the model has no meaning for. -/
inductive Refusal where
  /-- Raised by an arm of `exec` for an instruction without a meaning; no arm does so now. Safe. -/
  | notModelled (mnemonic : String)
  /-- Raised by the host's restore of data that is no snapshot of this machine: more than 16 stack entries, or memory out of its canonical
  form (10_state R34; log 10). Safe. -/
  | illFormedSnapshot
  deriving DecidableEq, Repr

/-- The complete architectural state and the frame buffer, in the normative field order (10_state R34). -/
structure Snapshot where
  i      : Word
  pc     : Word
  opcode : Word
  dt     : Byte
  st     : Byte
  v      : Vector Byte 16
  mem    : Memory
  stack  : List Word
  fb     : Frame
  deriving DecidableEq, Repr

/-- The transactions of the host (60_exceptions R248) and the moves of the three external collaborators between transactions
(10_state R30, 60_exceptions R242 to R244; log 6). -/
inductive HostAction where
  | step                          -- one instruction (40_flow R100)
  | tick                          -- one timer tick (60_exceptions R240)
  | reset                         -- 70_reset R260
  | load (rom : List Byte)        -- 70_reset R261
  | save                          -- snapshot save (10_state R34)
  | restore (snap : Snapshot)     -- snapshot restore (10_state R34)
  | setKeys (keys : BitVec 16)    -- the key state (60_exceptions R248)
  | setFrame (fb : Frame)         -- the frame buffer's owner changes it (44_display R190, R193)
  | setDraws (draws : List Byte)  -- a harness fixes the next random bytes (60_exceptions R244)
  deriving DecidableEq, Repr

/-- What the last transaction gave back to the host (60_exceptions R230, R241, R248). -/
inductive Report where
  | done                          -- nothing is given back
  | ok                            -- step: OK
  | waitKey                       -- step: WAIT_KEY (60_exceptions R233)
  | unknownOpcode (w : Word)      -- step: UNKNOWN_OPCODE and its word (60_exceptions R232)
  | fatal (f : Fault)             -- step: a fatal outcome, in the state `Machine.afterFatal` leaves (60_exceptions R231)
  | tone (due : Bool)             -- tick: should a tone sound (60_exceptions R241)
  | loadOk                        -- load: OK (70_reset R261)
  | romTooLarge                   -- load: ROM_TOO_LARGE (70_reset R261)
  | saved (snap : Snapshot)       -- save: the snapshot (10_state R34)
  deriving DecidableEq, Repr

/-- The two arguments of the model, fixed for a whole run: no transaction changes them (00_scope R6, 10_state R32; logs 3 and 4). -/
structure Params where
  loadStoreIncrementsI : Bool
  font : Vector Byte Config.fontSize
  deriving DecidableEq, Repr

/-- The state of the machine. -/
structure State where
  /-- `mem`, 4096 bytes (10_state R20). -/
  mem : Memory
  /-- V0 to VF (10_state R21). -/
  v : Vector Byte 16
  /-- The index register I (10_state R24). -/
  i : Word
  /-- The program counter (10_state R25). -/
  pc : Word
  /-- The call stack, the most recent entry first (10_state R26; log 14). -/
  stack : List Word
  /-- The delay timer DT (10_state R28). -/
  dt : Byte
  /-- The sound timer ST (10_state R28). -/
  st : Byte
  /-- The opcode latch (10_state R29). -/
  opcode : Word
  /-- The frame buffer, external (10_state R30). -/
  fb : Frame
  /-- The key state, external: bit k set iff key k is down (45_timers_keys R210). -/
  keys : BitVec 16
  /-- The model's own: random bytes a harness has fixed, the next one first (60_exceptions R244; log 5). -/
  rngQueue : List Byte
  /-- The model's own: how many random bytes were drawn (42_alu R152; log 5). -/
  rngDraws : Nat
  /-- The arguments of the model (00_scope R6). -/
  params : Params
  /-- The model's own: the host's transactions still to come, oldest first; when empty the host calls `step` (60_exceptions R242; log 6). -/
  pending : List HostAction
  /-- The model's own: what the last transaction gave back to the host (60_exceptions R248; log 7). -/
  report : Report
  deriving DecidableEq, Repr

/-- What a step or the meaning of an instruction answers. -/
abbrev Result := Host.Outcome State Fault Refusal

/-- The machine right after reset (10_state R33, 70_reset R260): memory lists nothing, since an unlisted address reads as its reset contents. The
fields from `fb` on are not reset by the spec; their values here are DESIGN CHOICES (logs 1 to 7). -/
def State.reset : State where
  mem := []
  v := Vector.replicate 16 0
  i := 0
  pc := Config.resetPc
  stack := []
  dt := 0
  st := 0
  opcode := 0
  fb := Vector.replicate Config.fbH (Vector.replicate Config.fbW false)
  keys := 0
  rngQueue := []
  rngDraws := 0
  params := { loadStoreIncrementsI := false, font := defaultFont }
  pending := []
  report := .done

end Sys2Proof.Machine
end

