-- ==== Sys2Proof/Machine/Ops.lean ====
section
/-! DEFINITION. The named operations over memory, registers, the call stack, the frame buffer, the keypad and the random source; the range check of
every access; how an instruction completes, retries, or ends in a fatal outcome. -/

namespace Sys2Proof.Machine

/-! ## Memory (20_memory R50 to R56) -/

/-- What an address that memory does not list reads as: its content after reset with the default FONT (10_state R33; log 4). -/
def Memory.unlisted (a : Nat) : Byte := (defaultFont.toList[a]?).getD 0

/-- The byte at address `a`. -/
def Memory.read : Memory → Nat → Byte
  | [], a => Memory.unlisted a
  | (k, b) :: rest, a => if k = a then b else Memory.read rest a

/-- Lists the cell in front of `rest`, unless it holds what an unlisted address reads as. -/
def Memory.list (a : Nat) (b : Byte) (rest : Memory) : Memory :=
  if b = Memory.unlisted a then rest else (a, b) :: rest

/-- Memory with `b` at address `a`, in canonical form. -/
def Memory.write : Memory → Nat → Byte → Memory
  | [], a, b => Memory.list a b []
  | (k, c) :: rest, a, b =>
    if a < k then Memory.list a b ((k, c) :: rest)
    else if a = k then Memory.list a b rest
    else (k, c) :: Memory.write rest a b

/-- Memory with the bytes at `a`, `a + 1`, ..., the first byte stored first. -/
def Memory.writeBytes (m : Memory) (a : Nat) : List Byte → Memory
  | [] => m
  | b :: rest => Memory.writeBytes (Memory.write m a b) (a + 1) rest

/-- The canonical form: addresses strictly rising and inside 0x000 to 0xFFF, no cell equal to what an unlisted address reads as. -/
abbrev Memory.wf (m : Memory) : Prop :=
  m.Pairwise (fun c d => c.1 < d.1) ∧ ∀ c ∈ m, c.1 < Config.memSize ∧ c.2 ≠ Memory.unlisted c.1

/-! ## Registers (10_state R21, 00_scope R9) -/

/-- `V[x]`. -/
def State.getV (s : State) (x : Reg) : Byte := s.v[x.toNat]'x.isLt

/-- `V[x] <- b`. No register is hard-wired (10_state R21). -/
def State.setV (s : State) (x : Reg) (b : Byte) : State := { s with v := s.v.set x.toNat b x.isLt }

/-- `I <- w`; I is never masked to 12 bits (10_state R24). -/
def State.setI (s : State) (w : Word) : State := { s with i := w }

/-- The memory replaced. -/
def State.setMem (s : State) (m : Memory) : State := { s with mem := m }

/-- `DT <- b`. -/
def State.setDt (s : State) (b : Byte) : State := { s with dt := b }

/-- `ST <- b`. -/
def State.setSt (s : State) (b : Byte) : State := { s with st := b }

/-- The call stack replaced. -/
def State.setStack (s : State) (st : List Word) : State := { s with stack := st }

/-- The frame buffer replaced. -/
def State.setFb (s : State) (fb : Frame) : State := { s with fb := fb }

/-- `opcode <- w`, the opcode latch (10_state R29). -/
def State.latch (s : State) (w : Word) : State := { s with opcode := w }

/-- The program counter and the outcome reported to the host (40_flow R100, 60_exceptions R230). -/
def State.finish (s : State) (pc : Word) (r : Report) : State := { s with pc := pc, report := r }

/-! ## How an instruction ends (00_scope R9, 60_exceptions R230 to R233) -/

/-- Outcome OK with `pc <- target`: the jumps, CALL and RET end so (40_flow R101). -/
def jumpTo (target : Word) (s : State) : Result := .next (s.finish target .ok)

/-- `next`: `pc <- trunc_16(PC + 2)`, outcome OK. -/
def advance (s : State) : Result := .next (s.finish (s.pc + 2#16) .ok)

/-- `skip_if(c)`: `pc <- trunc_16(PC + (c ? 4 : 2))`, outcome OK (41_skips R120). -/
def skipIf (c : Bool) (s : State) : Result := .next (s.finish (s.pc + (if c then 4#16 else 2#16)) .ok)

/-- `retry`: outcome WAIT_KEY, PC unchanged (60_exceptions R233). -/
def retryStep (s : State) : Result := .next (s.finish s.pc .waitKey)

/-- `next; report UNKNOWN_OPCODE(op)`: non-fatal (30_encoding R78, 60_exceptions R232). -/
def reportUnknown (w : Word) (s : State) : Result := .next (s.finish (s.pc + 2#16) (.unknownOpcode w))

/-- `raise E(info)`: the step ends in a fatal outcome and no write of the instruction is kept. There is no handler, nothing is saved, the PC does
not move (60_exceptions R231, R235); what the host is left with is `afterFatal`. -/
def raiseFatal (f : Fault) : Result := .fault f

/-! ## Range check of an access (20_memory R51) -/

/-- An access of `n` bytes at `a` is in range, on mathematical integers. -/
abbrev inRange (a : Word) (n : Nat) : Prop := n = 0 ∨ a.toNat + n - 1 ≤ Config.addrMax

/-- The info address of an out-of-range access at `a`: `max(a, 0x1000)`. -/
def failAddr (a : Word) : Word := if a.toNat < Config.memSize then 0x1000#16 else a

/-- `check(a, n, kind)` and then the rest of the instruction: the check precedes every access and every write. -/
def withAccess (s : State) (a : Word) (n : Nat) (kind : AccessKind) (rest : Result) : Result :=
  if inRange a n then rest else raiseFatal (.addressOutOfRange (failAddr a) kind s.pc)

/-! ## Call stack (10_state R26) -/

/-- `push(v)`, or STACK_OVERFLOW when 16 entries are held; `rest` continues with the new state. -/
def pushStack (w : Word) (rest : State → Result) (s : State) : Result :=
  if s.stack.length < Config.stackDepth then rest (s.setStack (w :: s.stack)) else raiseFatal (.stackOverflow s.pc)

/-- `pop()`, or STACK_UNDERFLOW when the stack is empty; `rest` continues with the popped entry and the new state. -/
def popStack (rest : Word → State → Result) (s : State) : Result :=
  match s.stack with
  | [] => raiseFatal (.stackUnderflow s.pc)
  | a :: below => rest a (s.setStack below)

/-! ## Frame buffer port (44_display R190) -/

/-- `FB.get(x, y)`; no instruction calls it. -/
def Frame.get (f : Frame) (x : Fin Config.fbW) (y : Fin Config.fbH) : Bool := f[y][x]

/-- `FB.setXor(x, y)`: the pixel is inverted; the old value is returned beside the new frame. -/
def Frame.setXor (f : Frame) (x : Fin Config.fbW) (y : Fin Config.fbH) : Frame × Bool :=
  (f.set y (f[y].set x (!Frame.get f x y)), Frame.get f x y)

/-- `FB.clear()`: every pixel unset. -/
def Frame.cleared : Frame := Vector.replicate Config.fbH (Vector.replicate Config.fbW false)

/-! ## Keypad and random source (45_timers_keys R210, 60_exceptions R243, R244) -/

/-- `KP.isDown(k)`, non-destructive. -/
def State.isDown (s : State) (k : Nibble) : Bool := s.keys.getLsbD k.toNat

/-- `RNG()`: the byte a harness has fixed, else the free value of this draw (42_alu R152; log 5). -/
def State.draw (s : State) : Byte := s.rngQueue.headD (Config.randomByte s.rngDraws)

/-- The random source after one draw. -/
def State.drawn (s : State) : State := { s with rngQueue := s.rngQueue.tail, rngDraws := s.rngDraws + 1 }

end Sys2Proof.Machine
end

