-- ==== Sys2Proof/Machine/Flags.lean ====
section
/-! DEFINITION. Every flag computation, and the order in which a flag and a result are written (42_alu R140, R147 to R151). -/

namespace Sys2Proof.Machine

/-- A flag as the byte VF receives, 0x01 or 0x00 (42_alu R153). -/
def flagByte (c : Bool) : Byte := if c then 0x01#8 else 0x00#8

/-- The carry of `a + b`: 1 iff the exact sum exceeds 255 (42_alu R147). -/
def carryOut (a b : Byte) : Bool := decide (255 < a.toNat + b.toNat)

/-- "No borrow" of `a - b`: 1 iff minuend >= subtrahend, unsigned (42_alu R148, R150). -/
def notBorrow (a b : Byte) : Bool := decide (b.toNat ≤ a.toNat)

/-- The bit a right shift moves out (42_alu R149). -/
def shiftedOutRight (a : Byte) : Bool := a.getLsbD 0

/-- The bit a left shift moves out (42_alu R151). -/
def shiftedOutLeft (a : Byte) : Bool := a.getLsbD 7

/-- VF written first, then the destination: with X = F the result stays and the flag is lost (42_alu R140, 70_reset R265). -/
def State.setFlagThen (s : State) (flag : Bool) (x : Reg) (result : Byte) : State :=
  (s.setV vF (flagByte flag)).setV x result

end Sys2Proof.Machine
end

