-- ==== Sys2Proof/Machine/Operands.lean ====
section
/-! DEFINITION. Every operand form of the instruction set: zero-extended immediates (30_encoding R73), the low nibble of a register, the register
list V0 to VX, font glyphs, decimal digits, the bytes of a sprite, the key scan. -/

namespace Sys2Proof.Machine

/-- `zext_16(nnn)` (30_encoding R73). -/
def addrWord (nnn : Addr) : Word := nnn.setWidth 16

/-- `zext_16(b)` of a byte (40_flow R106, 43_index_memory R171). -/
def byteWord (b : Byte) : Word := b.setWidth 16

/-- A key index as a byte (45_timers_keys R212). -/
def nibbleByte (k : Nibble) : Byte := k.setWidth 8

/-- `v & 0xF` (41_skips R125, 43_index_memory R172). -/
def lowNibble (v : Byte) : Nibble := v.setWidth 4

/-- The 16 nibbles in ascending order: the registers, or the keys. -/
def allNibbles : List Nibble := [0, 1, 2, 3, 4, 5, 6, 7, 8, 9, 10, 11, 12, 13, 14, 15]

/-- The registers V0 to VX in ascending order (43_index_memory R174, R175). -/
def regsThrough (x : Reg) : List Reg := allNibbles.take (x.toNat + 1)

/-- How many registers V0 to VX are, X + 1 (43_index_memory R174). -/
def regCount (x : Reg) : Nat := x.toNat + 1

/-- `FONT_BASE + 5 * (v & 0xF)`, the address of a glyph (43_index_memory R172). -/
def glyphAddr (v : Byte) : Word := BitVec.ofNat 16 (Config.fontBase + 5 * (lowNibble v).toNat)

/-- The decimal digits of a byte, hundreds first (43_index_memory R173). -/
def decimalDigits (v : Byte) : List Byte :=
  [BitVec.ofNat 8 (v.toNat / 100), BitVec.ofNat 8 (v.toNat / 10 % 10), BitVec.ofNat 8 (v.toNat % 10)]

/-- The address of byte `k` of an access at `a`, after its range check (20_memory R54). -/
def byteAddr (a : Word) (k : Nat) : Nat := a.toNat + k

/-- The `n` bytes of a sprite at `a`, row 0 first (44_display R192). -/
def spriteRows (m : Memory) (a : Word) (n : Nat) : List Byte := (List.range n).map fun k => Memory.read m (byteAddr a k)

/-- The lowest key that is down (45_timers_keys R212). -/
def firstKeyDown (s : State) : Option Nibble := allNibbles.find? s.isDown

/-- I after FX55 or FX65: `trunc_16(I + x + 1)` when the switch LOAD_STORE_INCREMENTS_I is set, else I (43_index_memory R174, R175). -/
def indexAfterTransfer (s : State) (x : Reg) : Word :=
  if s.params.loadStoreIncrementsI then s.i + BitVec.ofNat 16 (regCount x) else s.i

end Sys2Proof.Machine
end

