-- ==== Sys2Proof/Machine/Alu.lean ====
section
/-! DEFINITION. Register loads, the ALU and the random byte (42_alu R141 to R152). Operands are those of the state the instruction starts in (R140). -/

namespace Sys2Proof.Machine

/-- 6XNN (42_alu R141). -/
def execLdVxNn (x : Reg) (nn : Byte) (s : State) : Result := advance (s.setV x nn)

/-- 7XNN adds modulo 256 and writes no flag (42_alu R142). -/
def execAddVxNn (x : Reg) (nn : Byte) (s : State) : Result := advance (s.setV x (s.getV x + nn))

/-- 8XY0 (42_alu R143). -/
def execLdVxVy (x y : Reg) (s : State) : Result := advance (s.setV x (s.getV y))

/-- 8XY1; VF is unchanged (42_alu R144). -/
def execOrVxVy (x y : Reg) (s : State) : Result := advance (s.setV x (s.getV x ||| s.getV y))

/-- 8XY2; VF is unchanged (42_alu R145). -/
def execAndVxVy (x y : Reg) (s : State) : Result := advance (s.setV x (s.getV x &&& s.getV y))

/-- 8XY3; VF is unchanged (42_alu R146). -/
def execXorVxVy (x y : Reg) (s : State) : Result := advance (s.setV x (s.getV x ^^^ s.getV y))

/-- 8XY4: VF the carry, VX the sum modulo 256 (42_alu R147). -/
def execAddVxVy (x y : Reg) (s : State) : Result :=
  advance (s.setFlagThen (carryOut (s.getV x) (s.getV y)) x (s.getV x + s.getV y))

/-- 8XY5: VF "no borrow", VX the difference VX - VY modulo 256 (42_alu R148). -/
def execSubVxVy (x y : Reg) (s : State) : Result :=
  advance (s.setFlagThen (notBorrow (s.getV x) (s.getV y)) x (s.getV x - s.getV y))

/-- 8XY6: VF the old bit 0, VX shifted right by one; Y is ignored (42_alu R149). -/
def execShrVx (x _y : Reg) (s : State) : Result :=
  advance (s.setFlagThen (shiftedOutRight (s.getV x)) x (s.getV x >>> 1))

/-- 8XY7: VF "no borrow", VX the difference VY - VX modulo 256 (42_alu R150). -/
def execSubnVxVy (x y : Reg) (s : State) : Result :=
  advance (s.setFlagThen (notBorrow (s.getV y) (s.getV x)) x (s.getV y - s.getV x))

/-- 8XYE: VF the old bit 7, VX shifted left by one; Y is ignored (42_alu R151). -/
def execShlVx (x _y : Reg) (s : State) : Result :=
  advance (s.setFlagThen (shiftedOutLeft (s.getV x)) x (s.getV x <<< 1))

/-- CXNN takes one draw and ANDs it with NN (42_alu R152). -/
def execRnd (x : Reg) (nn : Byte) (s : State) : Result := advance (s.drawn.setV x (s.draw &&& nn))

end Sys2Proof.Machine
end

