-- ==== Sys2Proof/Machine/Display.lean ====
section
/-! DEFINITION. The sprite compositor: CLS and DRW (44_display R191, R192). -/

namespace Sys2Proof.Machine

/-- The column of pixel `col` of a sprite at `xs`, wrapped: `(xs + col) mod FB_W` (44_display R192). -/
def wrapX (xs : Byte) (col : Nat) : Fin Config.fbW := Fin.ofNat Config.fbW (xs.toNat + col)

/-- The row of row `row` of a sprite at `ys`, wrapped: `(ys + row) mod FB_H` (44_display R192). -/
def wrapY (ys : Byte) (row : Nat) : Fin Config.fbH := Fin.ofNat Config.fbH (ys.toNat + row)

/-- Bit `7 - col` of a sprite byte: bit 7 is column 0 (44_display R192). -/
def spriteBit (bits : Byte) (col : Nat) : Bool := bits.getLsbD (7 - col)

/-- One set bit XORed onto the frame; the collision so far is beside the frame (44_display R192). -/
def drawPixel (xs ys : Byte) (row col : Nat) (d : Frame × Bool) : Frame × Bool :=
  ((Frame.setXor d.1 (wrapX xs col) (wrapY ys row)).1, d.2 || (Frame.setXor d.1 (wrapX xs col) (wrapY ys row)).2)

/-- The eight columns of one row, column 0 first (44_display R192). -/
def drawRow (xs ys : Byte) (row : Nat) (bits : Byte) (d : Frame × Bool) : Frame × Bool :=
  (List.range 8).foldl (fun d col => if spriteBit bits col then drawPixel xs ys row col d else d) d

/-- The rows from number `row` on, in order (44_display R192). -/
def drawRows (xs ys : Byte) : Nat → List Byte → Frame × Bool → Frame × Bool
  | _, [], d => d
  | row, bits :: rest, d => drawRows xs ys (row + 1) rest (drawRow xs ys row bits d)

/-- 0zE0 clears the frame buffer; z is ignored (44_display R191, 30_encoding R77). -/
def execCls (_z : Nibble) (s : State) : Result := advance (s.setFb Frame.cleared)

/-- DXYN draws N rows from I at (VX, VY), all latched first; VF is 1 iff a set pixel was unset (44_display R192). -/
def execDrw (x y : Reg) (n : Nibble) (s : State) : Result :=
  let drawing := drawRows (s.getV x) (s.getV y) 0 (spriteRows s.mem s.i n.toNat) (s.fb, false)
  withAccess s s.i n.toNat .read (advance ((s.setFb drawing.1).setV vF (flagByte drawing.2)))

end Sys2Proof.Machine
end

