-- ==== Sys2Proof/Machine/Flow.lean ====
section
/-! DEFINITION. The program-counter sequencer: SYS, RET, JP, CALL, JP V0 (40_flow R102 to R106). -/

namespace Sys2Proof.Machine

/-- 0NNN does nothing but advance (40_flow R102). -/
def execSys (_nnn : Addr) (s : State) : Result := advance s

/-- 00EE returns to the instruction after the call whose address it pops; z is ignored (40_flow R103, 30_encoding R77). -/
def execRet (_z : Nibble) (s : State) : Result := popStack (fun a t => jumpTo (a + 2#16) t) s

/-- 1NNN jumps to NNN (40_flow R104). -/
def execJp (nnn : Addr) (s : State) : Result := jumpTo (addrWord nnn) s

/-- 2NNN pushes its own address and jumps to NNN (40_flow R105). -/
def execCall (nnn : Addr) (s : State) : Result := pushStack s.pc (jumpTo (addrWord nnn)) s

/-- BNNN jumps to NNN + V0, not wrapped to 12 bits (40_flow R106). -/
def execJpV0 (nnn : Addr) (s : State) : Result := jumpTo (addrWord nnn + byteWord (s.getV 0x0#4)) s

end Sys2Proof.Machine
end

