-- ==== Sys2Proof/Machine/IndexMemory.lean ====
section
/-! DEFINITION. The index register and the transfers through it (43_index_memory R170 to R175). The whole range is checked before any byte moves. -/

namespace Sys2Proof.Machine

/-- ANNN (43_index_memory R170). -/
def execLdI (nnn : Addr) (s : State) : Result := advance (s.setI (addrWord nnn))

/-- FX1E adds VX to I modulo 2^16; VF is unchanged (43_index_memory R171). -/
def execAddIVx (x : Reg) (s : State) : Result := advance (s.setI (s.i + byteWord (s.getV x)))

/-- FX29 points I at the glyph of the low nibble of VX (43_index_memory R172). -/
def execLdFVx (x : Reg) (s : State) : Result := advance (s.setI (glyphAddr (s.getV x)))

/-- FX33 stores the decimal digits of VX at I, I+1, I+2 (43_index_memory R173). -/
def execLdBVx (x : Reg) (s : State) : Result :=
  withAccess s s.i 3 .write (advance (s.setMem (Memory.writeBytes s.mem (byteAddr s.i 0) (decimalDigits (s.getV x)))))

/-- FX55 stores V0 to VX at I and above, V0 first; I moves past them if the switch is set (43_index_memory R174). -/
def execLdMemVx (x : Reg) (s : State) : Result :=
  withAccess s s.i (regCount x) .write
    (advance ((s.setMem (Memory.writeBytes s.mem (byteAddr s.i 0) ((regsThrough x).map s.getV))).setI (indexAfterTransfer s x)))

/-- V0 to VX loaded from the bytes at I and above, in ascending order (43_index_memory R175). -/
def loadRegs (s : State) (x : Reg) : State :=
  (regsThrough x).foldl (fun t k => t.setV k (Memory.read s.mem (byteAddr s.i k.toNat))) s

/-- FX65 loads V0 to VX from I and above; I moves past them if the switch is set (43_index_memory R175). -/
def execLdVxMem (x : Reg) (s : State) : Result :=
  withAccess s s.i (regCount x) .read (advance ((loadRegs s x).setI (indexAfterTransfer s x)))

end Sys2Proof.Machine
end

