-- ==== Sys2Proof/Machine/Skips.lean ====
section
/-! DEFINITION. The conditional skips (41_skips R120 to R126). -/

namespace Sys2Proof.Machine

/-- 3XNN skips if VX = NN (41_skips R121). -/
def execSeVxNn (x : Reg) (nn : Byte) (s : State) : Result := skipIf (s.getV x == nn) s

/-- 4XNN skips if VX differs from NN (41_skips R122). -/
def execSneVxNn (x : Reg) (nn : Byte) (s : State) : Result := skipIf (s.getV x != nn) s

/-- 5XY0 skips if VX = VY (41_skips R123). -/
def execSeVxVy (x y : Reg) (s : State) : Result := skipIf (s.getV x == s.getV y) s

/-- 9XY0 skips if VX differs from VY (41_skips R124). -/
def execSneVxVy (x y : Reg) (s : State) : Result := skipIf (s.getV x != s.getV y) s

/-- EX9E skips if the key named by the low nibble of VX is down (41_skips R125). -/
def execSkp (x : Reg) (s : State) : Result := skipIf (s.isDown (lowNibble (s.getV x))) s

/-- EXA1 skips if the key named by the low nibble of VX is up (41_skips R126). -/
def execSknp (x : Reg) (s : State) : Result := skipIf (!s.isDown (lowNibble (s.getV x))) s

end Sys2Proof.Machine
end

