-- ==== Sys2Proof/Machine/TimersKeys.lean ====
section
/-! DEFINITION. Timer access and the key wait (45_timers_keys R211 to R214). -/

namespace Sys2Proof.Machine

/-- FX07 copies DT into VX (45_timers_keys R211). -/
def execLdVxDt (x : Reg) (s : State) : Result := advance (s.setV x s.dt)

/-- FX0A stores the lowest key that is down in VX, or retries when none is (45_timers_keys R212). -/
def execLdVxK (x : Reg) (s : State) : Result :=
  match firstKeyDown s with
  | some k => advance (s.setV x (nibbleByte k))
  | none => retryStep s

/-- FX15 loads DT from VX (45_timers_keys R213). -/
def execLdDtVx (x : Reg) (s : State) : Result := advance (s.setDt (s.getV x))

/-- FX18 loads ST from VX (45_timers_keys R214). -/
def execLdStVx (x : Reg) (s : State) : Result := advance (s.setSt (s.getV x))

end Sys2Proof.Machine
end

