-- ==== Sys2Proof/Machine/Fetch.lean ====
section
/-! DEFINITION. The step transaction: the fetch and its checks, the opcode latch, decode, execute (40_flow R100; 60_exceptions R234), and the state a
fatal outcome leaves (60_exceptions R231). -/

namespace Sys2Proof.Machine

/-- What the fetch answers: the word at PC, or a fatal outcome. -/
inductive Fetched where
  | word (w : Word)
  | fatal (f : Fault)
  deriving DecidableEq, Repr

/-- The word at PC, big-endian; the range is checked before the alignment (20_memory R52, R53; 40_flow R100). -/
def fetch (s : State) : Fetched :=
  if ¬ inRange s.pc 2 then .fatal (.addressOutOfRange (failAddr s.pc) .fetch s.pc)
  else if s.pc.getLsbD 0 then .fatal (.misalignedPc s.pc)
  else .word (wordOfBytes (Memory.read s.mem s.pc.toNat) (Memory.read s.mem (s.pc.toNat + 1)))

/-- Decode and execute a fetched word that is already latched; an UNKNOWN word is reported and passed over (40_flow R100, 30_encoding R78). -/
def execWord (w : Word) (s : State) : Result :=
  match decode w with
  | .instr i => exec i s
  | .unknown u => reportUnknown u s

/-- The step transaction (40_flow R100). -/
def runInstr (s : State) : Result :=
  match fetch s with
  | .fatal f => raiseFatal f
  | .word w => execWord w (s.latch w)

/-- The state with the transaction at the head of `pending` taken off. -/
def State.dequeued (s : State) : State := { s with pending := s.pending.tail }

/-- The state with the opcode latch written if the fetch succeeds (10_state R29). -/
def latchFetched (s : State) : State :=
  match fetch s with
  | .fatal _ => s
  | .word w => s.latch w

/-- The state the host is left with when a step of `s` ends in the fatal outcome `f`: only the opcode latch is written, and only when the fetch
succeeded (60_exceptions R231). From it the host may reset, load, restore, or call `step` again (60_exceptions R235; log 8). -/
def afterFatal (f : Fault) (s : State) : State := { latchFetched s.dequeued with report := .fatal f }

/-- The state with the word stored big-endian at PC, when two bytes are in range there, and a step as the next transaction. -/
def placeWord (w : Word) (s : State) : State :=
  { s with
    mem := if inRange s.pc 2 then Memory.writeBytes s.mem s.pc.toNat [highByte w, lowByte w] else s.mem
    pending := [] }

end Sys2Proof.Machine
end

