-- ==== Sys2Proof/Machine/HostOps.lean ====
section
/-! DEFINITION. The host's transactions beside the step: tick, reset, load, snapshot save and restore, the key state, and the moves of the external
collaborators (60_exceptions R240 to R248; 70_reset R260, R261; 10_state R34); the outcome codes (60_exceptions R230). -/

namespace Sys2Proof.Machine

/-- One decrement, floored at 0 (60_exceptions R240). -/
def countDown (t : Byte) : Byte := if 0 < t.toNat then t - 1 else t

/-- `tick()`: the tone is due iff ST was 1 before the decrement (60_exceptions R240, R241). -/
def tick (s : State) : State := { s with dt := countDown s.dt, st := countDown s.st, report := .tone (s.st == 1) }

/-- Memory after reset: the FONT at 0x000, every other byte 0x00 (10_state R33). -/
def fontMemory (font : Vector Byte Config.fontSize) : Memory := Memory.writeBytes [] Config.fontBase font.toList

/-- `reset()`: every field of the architectural state to its reset value; the frame buffer, the key state, the random source and the arguments stay
(70_reset R260). -/
def resetCore (s : State) : State :=
  { s with
    mem := fontMemory s.params.font
    v := Vector.replicate 16 0
    i := 0
    pc := Config.resetPc
    stack := []
    dt := 0
    st := 0
    opcode := 0
    report := .done }

/-- `load(rom)`: too large a ROM changes nothing; any other is copied to 0x200 after a reset (70_reset R261). -/
def loadRom (rom : List Byte) (s : State) : State :=
  if Config.romMax < rom.length then { s with report := .romTooLarge }
  else { resetCore s with
    mem := Memory.writeBytes (resetCore s).mem Config.programBase rom
    report := .loadOk }

/-- The snapshot of a state: its architectural state and the frame buffer (10_state R34). -/
def State.snapshot (s : State) : Snapshot where
  i := s.i
  pc := s.pc
  opcode := s.opcode
  dt := s.dt
  st := s.st
  v := s.v
  mem := s.mem
  stack := s.stack
  fb := s.fb

/-- A snapshot of this machine: at most 16 stack entries, memory in canonical form (10_state R26, R34; log 10). -/
abbrev Snapshot.wf (snap : Snapshot) : Prop := Memory.wf snap.mem ∧ snap.stack.length ≤ Config.stackDepth

/-- The state with every field of a snapshot set to its saved value (10_state R34). -/
def State.restored (s : State) (snap : Snapshot) : State :=
  { s with
    i := snap.i
    pc := snap.pc
    opcode := snap.opcode
    dt := snap.dt
    st := snap.st
    v := snap.v
    mem := snap.mem
    stack := snap.stack
    fb := snap.fb }

/-- Snapshot save: nothing changes, the snapshot is given back (60_exceptions R248). -/
def saveSnapshot (s : State) : State := { s with report := .saved s.snapshot }

/-- Snapshot restore; data that is no snapshot of this machine is refused (10_state R34; log 10). -/
def restoreSnapshot (snap : Snapshot) (s : State) : Result :=
  if Snapshot.wf snap then .next { s.restored snap with report := .done } else .refused .illFormedSnapshot

/-- One transaction of the host or move of a collaborator (60_exceptions R242, R248). -/
def hostAct (a : HostAction) (s : State) : Result :=
  match a with
  | .step => runInstr s
  | .tick => .next (tick s)
  | .reset => .next (resetCore s)
  | .load rom => .next (loadRom rom s)
  | .save => .next (saveSnapshot s)
  | .restore snap => restoreSnapshot snap s
  | .setKeys k => .next { s with keys := k, report := .done }
  | .setFrame f => .next { s with fb := f, report := .done }
  | .setDraws q => .next { s with rngQueue := q, report := .done }

/-- The transaction that comes next: the head of `pending`, or a step when the host has nothing else planned (60_exceptions R242). -/
def State.nextAction (s : State) : HostAction := s.pending.headD .step

/-- The numeric code of a fatal outcome (60_exceptions R230). -/
def Fault.code : Fault → Nat
  | .stackOverflow _ => 3
  | .stackUnderflow _ => 4
  | .addressOutOfRange _ _ _ => 5
  | .misalignedPc _ => 6

/-- The numeric code of a step's outcome; the results of the other transactions have none (60_exceptions R230). -/
def Report.code : Report → Option Nat
  | .ok => some 0
  | .waitKey => some 1
  | .unknownOpcode _ => some 2
  | .fatal f => some f.code
  | .done | .tone _ | .loadOk | .romTooLarge | .saved _ => none

end Sys2Proof.Machine
end

