-- ==== Sys2Proof/Machine/Step.lean ====
section
/-! DEFINITION. One move of the machine: the next transaction of the host, which is a step unless `pending` says otherwise (00_scope R10, 60_exceptions
R242, R248), and the placing of an instruction where the next move fetches it. -/

namespace Sys2Proof.Machine

/-- The next transaction, taken off `pending` and carried out. -/
def step (s : State) : Host.Outcome State Fault Refusal := hostAct s.nextAction s.dequeued

/-- `s` with the table's instruction stored at PC, and a step as the next transaction (log 9). -/
def State.withFetchWord (s : State) (nbits w : Nat) : State := placeWord (tableWord nbits w) s

end Sys2Proof.Machine
end

