-- ==== Sys2Proof/Machine/Assembly.lean ====
section
/-! DEFINITION. The assembler syntax (30_encoding R81): the mnemonics, the operand forms, each kind's line, the instruction of a line, and how a line
is written. It carries no semantics (D32): the machine never reads it. -/

namespace Sys2Proof

/-- The mnemonics of the table of 30_encoding R81. -/
inductive Mnemonic where
  | sys | cls | ret | jp | call | se | sne | ld | add | or | and | xor | sub | shr | subn | shl | rnd | drw | skp | sknp
  deriving DecidableEq, Repr

/-- The operands of the table of 30_encoding R81. -/
inductive AsmOperand where
  | reg (x : Reg)        -- Vx, Vy, and the V0 of JP V0, addr
  | byte (nn : Byte)     -- byte
  | addr (nnn : Addr)    -- addr
  | nibble (n : Nibble)  -- nibble
  | index                -- I
  | atIndex              -- [I]
  | delay                -- DT
  | sound                -- ST
  | key                  -- K
  | font                 -- F
  | bcd                  -- B
  deriving DecidableEq, Repr

/-- One line of assembly: a mnemonic and its operands, in order. -/
structure AsmLine where
  mnemonic : Mnemonic
  operands : List AsmOperand
  deriving DecidableEq, Repr

/-- The line of an instruction (30_encoding R81). SHR and SHL are written with their Y field; CLS and RET have no operand, so z is not written (log 18). -/
def disassemble : Instr → AsmLine
  | .sys nnn => ⟨.sys, [.addr nnn]⟩
  | .cls _ => ⟨.cls, []⟩
  | .ret _ => ⟨.ret, []⟩
  | .jp nnn => ⟨.jp, [.addr nnn]⟩
  | .call nnn => ⟨.call, [.addr nnn]⟩
  | .seVxNn x nn => ⟨.se, [.reg x, .byte nn]⟩
  | .sneVxNn x nn => ⟨.sne, [.reg x, .byte nn]⟩
  | .seVxVy x y => ⟨.se, [.reg x, .reg y]⟩
  | .ldVxNn x nn => ⟨.ld, [.reg x, .byte nn]⟩
  | .addVxNn x nn => ⟨.add, [.reg x, .byte nn]⟩
  | .ldVxVy x y => ⟨.ld, [.reg x, .reg y]⟩
  | .orVxVy x y => ⟨.or, [.reg x, .reg y]⟩
  | .andVxVy x y => ⟨.and, [.reg x, .reg y]⟩
  | .xorVxVy x y => ⟨.xor, [.reg x, .reg y]⟩
  | .addVxVy x y => ⟨.add, [.reg x, .reg y]⟩
  | .subVxVy x y => ⟨.sub, [.reg x, .reg y]⟩
  | .shrVx x y => ⟨.shr, [.reg x, .reg y]⟩
  | .subnVxVy x y => ⟨.subn, [.reg x, .reg y]⟩
  | .shlVx x y => ⟨.shl, [.reg x, .reg y]⟩
  | .sneVxVy x y => ⟨.sne, [.reg x, .reg y]⟩
  | .ldI nnn => ⟨.ld, [.index, .addr nnn]⟩
  | .jpV0 nnn => ⟨.jp, [.reg 0x0#4, .addr nnn]⟩
  | .rnd x nn => ⟨.rnd, [.reg x, .byte nn]⟩
  | .drw x y n => ⟨.drw, [.reg x, .reg y, .nibble n]⟩
  | .skp x => ⟨.skp, [.reg x]⟩
  | .sknp x => ⟨.sknp, [.reg x]⟩
  | .ldVxDt x => ⟨.ld, [.reg x, .delay]⟩
  | .ldVxK x => ⟨.ld, [.reg x, .key]⟩
  | .ldDtVx x => ⟨.ld, [.delay, .reg x]⟩
  | .ldStVx x => ⟨.ld, [.sound, .reg x]⟩
  | .addIVx x => ⟨.add, [.index, .reg x]⟩
  | .ldFVx x => ⟨.ld, [.font, .reg x]⟩
  | .ldBVx x => ⟨.ld, [.bcd, .reg x]⟩
  | .ldMemVx x => ⟨.ld, [.atIndex, .reg x]⟩
  | .ldVxMem x => ⟨.ld, [.reg x, .atIndex]⟩

/-- The instruction of a line, before the check that a word decodes to it. A line that is none of R81's forms has no instruction: there are no
pseudo-instructions. In SHR and SHL an omitted Vy leaves the Y field 0 (log 18). -/
def readLine (line : AsmLine) : Option Instr :=
  match line.mnemonic, line.operands with
  | .sys, [.addr nnn] => some (.sys nnn)
  | .cls, [] => some (.cls 0x0#4)
  | .ret, [] => some (.ret 0x0#4)
  | .jp, [.addr nnn] => some (.jp nnn)
  | .jp, [.reg x, .addr nnn] => if x = 0x0#4 then some (.jpV0 nnn) else none
  | .call, [.addr nnn] => some (.call nnn)
  | .se, [.reg x, .byte nn] => some (.seVxNn x nn)
  | .se, [.reg x, .reg y] => some (.seVxVy x y)
  | .sne, [.reg x, .byte nn] => some (.sneVxNn x nn)
  | .sne, [.reg x, .reg y] => some (.sneVxVy x y)
  | .ld, [.reg x, .byte nn] => some (.ldVxNn x nn)
  | .ld, [.reg x, .reg y] => some (.ldVxVy x y)
  | .ld, [.reg x, .delay] => some (.ldVxDt x)
  | .ld, [.reg x, .key] => some (.ldVxK x)
  | .ld, [.reg x, .atIndex] => some (.ldVxMem x)
  | .ld, [.index, .addr nnn] => some (.ldI nnn)
  | .ld, [.delay, .reg x] => some (.ldDtVx x)
  | .ld, [.sound, .reg x] => some (.ldStVx x)
  | .ld, [.font, .reg x] => some (.ldFVx x)
  | .ld, [.bcd, .reg x] => some (.ldBVx x)
  | .ld, [.atIndex, .reg x] => some (.ldMemVx x)
  | .add, [.reg x, .byte nn] => some (.addVxNn x nn)
  | .add, [.reg x, .reg y] => some (.addVxVy x y)
  | .add, [.index, .reg x] => some (.addIVx x)
  | .or, [.reg x, .reg y] => some (.orVxVy x y)
  | .and, [.reg x, .reg y] => some (.andVxVy x y)
  | .xor, [.reg x, .reg y] => some (.xorVxVy x y)
  | .sub, [.reg x, .reg y] => some (.subVxVy x y)
  | .shr, [.reg x] => some (.shrVx x 0x0#4)
  | .shr, [.reg x, .reg y] => some (.shrVx x y)
  | .subn, [.reg x, .reg y] => some (.subnVxVy x y)
  | .shl, [.reg x] => some (.shlVx x 0x0#4)
  | .shl, [.reg x, .reg y] => some (.shlVx x y)
  | .rnd, [.reg x, .byte nn] => some (.rnd x nn)
  | .drw, [.reg x, .reg y, .nibble n] => some (.drw x y n)
  | .skp, [.reg x] => some (.skp x)
  | .sknp, [.reg x] => some (.sknp x)
  | _, _ => none

/-- The instruction of a line (30_encoding R81). A SYS line whose address ends in 0xE0 or 0xEE has none, since that word is CLS or RET (R77; log 18). -/
def assemble (line : AsmLine) : Option Instr :=
  match readLine line with
  | some i => if i.wf then some i else none
  | none => none

/-! ## How a line is written -/

/-- A hexadecimal digit. -/
def hexDigit (n : Nibble) : String :=
  (["0", "1", "2", "3", "4", "5", "6", "7", "8", "9", "A", "B", "C", "D", "E", "F"][n.toNat]?).getD ""

/-- The mnemonic as written (30_encoding R81). -/
def Mnemonic.text : Mnemonic → String
  | .sys => "SYS" | .cls => "CLS" | .ret => "RET" | .jp => "JP" | .call => "CALL" | .se => "SE" | .sne => "SNE" | .ld => "LD"
  | .add => "ADD" | .or => "OR" | .and => "AND" | .xor => "XOR" | .sub => "SUB" | .shr => "SHR" | .subn => "SUBN" | .shl => "SHL"
  | .rnd => "RND" | .drw => "DRW" | .skp => "SKP" | .sknp => "SKNP"

/-- The operand as written; numbers are hexadecimal, a byte with two digits, an address with three, a nibble as one bare digit, as in the programs of
95_test_vectors L3 (30_encoding R81; log 18). -/
def AsmOperand.text : AsmOperand → String
  | .reg x => "V" ++ hexDigit x
  | .byte nn => "0x" ++ hexDigit (nn.extractLsb' 4 4) ++ hexDigit (nn.extractLsb' 0 4)
  | .addr nnn => "0x" ++ hexDigit (nnn.extractLsb' 8 4) ++ hexDigit (nnn.extractLsb' 4 4) ++ hexDigit (nnn.extractLsb' 0 4)
  | .nibble n => hexDigit n
  | .index => "I"
  | .atIndex => "[I]"
  | .delay => "DT"
  | .sound => "ST"
  | .key => "K"
  | .font => "F"
  | .bcd => "B"

/-- The operands as written, a comma and a space between two of them. -/
def operandsText : List AsmOperand → String
  | [] => ""
  | [a] => a.text
  | a :: b :: rest => a.text ++ ", " ++ operandsText (b :: rest)

/-- The line as written: the mnemonic, then a space and the operands if there are any (30_encoding R81). -/
def AsmLine.text (line : AsmLine) : String :=
  if line.operands = [] then line.mnemonic.text else line.mnemonic.text ++ " " ++ operandsText line.operands

end Sys2Proof
end

