-- ==== Sys2Proof/Safety.lean ====
section
/-! DEFINITION. The terms that claims use: the invariants, what a transition leaves unchanged, the register table of 10_state R23, instruction
sequences, the halt loop of 70_reset R269. -/

namespace Sys2Proof.Machine

/-! ## Invariants -/

/-- Memory is in canonical form and at most 16 entries are on the stack (20_memory R50, 10_state R26). -/
abbrev State.Inv (s : State) : Prop := Memory.wf s.mem ∧ s.stack.length ≤ Config.stackDepth

/-- An address an instruction can have been fetched from: even, with two bytes in range (20_memory R53). -/
abbrev fetchable (a : Word) : Prop := a.toNat % 2 = 0 ∧ a.toNat ≤ 0xFFE

/-- A program counter and return addresses as a run produces them: the PC is at most 0x10FE, and every return address is one a CALL can have
been fetched from (10_state R25, 40_flow R103). -/
def pcReachable (pc : Word) (stack : List Word) : Prop := pc.toNat ≤ 0x10FE ∧ ∀ a ∈ stack, fetchable a

/-- The state and every snapshot the host is about to restore have such a PC and such return addresses. -/
def State.PcInv (s : State) : Prop :=
  pcReachable s.pc s.stack ∧ ∀ snap, HostAction.restore snap ∈ s.pending → pcReachable snap.pc snap.stack

/-! ## Frames -/

/-- What an instruction may change beside the program counter and the report to the host; whatever is not named stays. -/
structure Changes where
  regs : List Reg := []
  index : Bool := false
  memory : Bool := false
  stack : Bool := false
  delay : Bool := false
  sound : Bool := false
  screen : Bool := false
  random : Bool := false
  deriving DecidableEq, Repr

/-- `t` agrees with `s` in everything but the program counter, the report and what `c` names. Memory is compared through the read of a byte. -/
def KeptExcept (c : Changes) (s t : State) : Prop :=
  (∀ y, y ∉ c.regs → t.getV y = s.getV y) ∧
  (c.index = false → t.i = s.i) ∧
  (c.memory = false → ∀ a, Memory.read t.mem a = Memory.read s.mem a) ∧
  (c.stack = false → t.stack = s.stack) ∧
  (c.delay = false → t.dt = s.dt) ∧
  (c.sound = false → t.st = s.st) ∧
  (c.screen = false → t.fb = s.fb) ∧
  (c.random = false → t.rngQueue = s.rngQueue ∧ t.rngDraws = s.rngDraws) ∧
  t.opcode = s.opcode ∧ t.keys = s.keys ∧ t.params = s.params ∧ t.pending = s.pending

end Sys2Proof.Machine

namespace Sys2Proof

open Sys2Proof.Machine

/-! ## Classes of instructions -/

/-- The "writes" column of the table of 10_state R23, with the call stack and the random source added from 10_state R26 and 42_alu R152. -/
def Instr.changes : Instr → Changes
  | .sys _ | .jp _ | .jpV0 _ => {}
  | .seVxNn _ _ | .sneVxNn _ _ | .seVxVy _ _ | .sneVxVy _ _ | .skp _ | .sknp _ => {}
  | .call _ | .ret _ => { stack := true }
  | .ldVxNn x _ | .addVxNn x _ | .ldVxVy x _ | .orVxVy x _ | .andVxVy x _ | .xorVxVy x _ => { regs := [x] }
  | .addVxVy x _ | .subVxVy x _ | .shrVx x _ | .subnVxVy x _ | .shlVx x _ => { regs := [vF, x] }
  | .rnd x _ => { regs := [x], random := true }
  | .ldI _ | .addIVx _ | .ldFVx _ => { index := true }
  | .ldBVx _ => { memory := true }
  | .ldMemVx _ => { memory := true, index := true }
  | .ldVxMem x => { regs := regsThrough x, index := true }
  | .cls _ => { screen := true }
  | .drw _ _ _ => { regs := [vF], screen := true }
  | .ldVxDt x | .ldVxK x => { regs := [x] }
  | .ldDtVx _ => { delay := true }
  | .ldStVx _ => { sound := true }

/-- The kinds that end with `next`: every kind outside file 40_flow that is no skip (40_flow R101). -/
def Instr.endsWithNext : Instr → Bool
  | .ret _ | .jp _ | .call _ | .jpV0 _ => false
  | .seVxNn _ _ | .sneVxNn _ _ | .seVxVy _ _ | .sneVxVy _ _ | .skp _ | .sknp _ => false
  | .sys _ | .cls _ | .ldVxNn _ _ | .addVxNn _ _ | .ldVxVy _ _ | .orVxVy _ _ | .andVxVy _ _ | .xorVxVy _ _ | .addVxVy _ _
  | .subVxVy _ _ | .shrVx _ _ | .subnVxVy _ _ | .shlVx _ _ | .ldI _ | .rnd _ _ | .drw _ _ _ | .ldVxDt _ | .ldVxK _
  | .ldDtVx _ | .ldStVx _ | .addIVx _ | .ldFVx _ | .ldBVx _ | .ldMemVx _ | .ldVxMem _ => true

/-- The skip family (41_skips R120). -/
def Instr.isSkip : Instr → Bool
  | .seVxNn _ _ | .sneVxNn _ _ | .seVxVy _ _ | .sneVxVy _ _ | .skp _ | .sknp _ => true
  | .sys _ | .cls _ | .ret _ | .jp _ | .call _ | .jpV0 _ | .ldVxNn _ _ | .addVxNn _ _ | .ldVxVy _ _ | .orVxVy _ _ | .andVxVy _ _
  | .xorVxVy _ _ | .addVxVy _ _ | .subVxVy _ _ | .shrVx _ _ | .subnVxVy _ _ | .shlVx _ _ | .ldI _ | .rnd _ _ | .drw _ _ _
  | .ldVxDt _ | .ldVxK _ | .ldDtVx _ | .ldStVx _ | .addIVx _ | .ldFVx _ | .ldBVx _ | .ldMemVx _ | .ldVxMem _ => false

/-- The condition c of a skip on the state it starts in; no other kind has one (41_skips R120 to R126). -/
def Instr.skipTaken (i : Instr) (s : State) : Bool :=
  match i with
  | .seVxNn x nn => decide (s.getV x = nn)
  | .sneVxNn x nn => decide (s.getV x ≠ nn)
  | .seVxVy x y => decide (s.getV x = s.getV y)
  | .sneVxVy x y => decide (s.getV x ≠ s.getV y)
  | .skp x => s.keys.getLsbD ((s.getV x).toNat % 16)
  | .sknp x => !s.keys.getLsbD ((s.getV x).toNat % 16)
  | .sys _ | .cls _ | .ret _ | .jp _ | .call _ | .jpV0 _ | .ldVxNn _ _ | .addVxNn _ _ | .ldVxVy _ _ | .orVxVy _ _ | .andVxVy _ _
  | .xorVxVy _ _ | .addVxVy _ _ | .subVxVy _ _ | .shrVx _ _ | .subnVxVy _ _ | .shlVx _ _ | .ldI _ | .rnd _ _ | .drw _ _ _
  | .ldVxDt _ | .ldVxK _ | .ldDtVx _ | .ldStVx _ | .addIVx _ | .ldFVx _ | .ldBVx _ | .ldMemVx _ | .ldVxMem _ => false

/-- The kinds that reach the keypad (20_memory R63). -/
def Instr.readsKeys : Instr → Bool
  | .skp _ | .sknp _ | .ldVxK _ => true
  | .sys _ | .cls _ | .ret _ | .jp _ | .call _ | .seVxNn _ _ | .sneVxNn _ _ | .seVxVy _ _ | .ldVxNn _ _ | .addVxNn _ _
  | .ldVxVy _ _ | .orVxVy _ _ | .andVxVy _ _ | .xorVxVy _ _ | .addVxVy _ _ | .subVxVy _ _ | .shrVx _ _ | .subnVxVy _ _
  | .shlVx _ _ | .sneVxVy _ _ | .ldI _ | .jpV0 _ | .rnd _ _ | .drw _ _ _ | .ldVxDt _ | .ldDtVx _ | .ldStVx _ | .addIVx _
  | .ldFVx _ | .ldBVx _ | .ldMemVx _ | .ldVxMem _ => false

/-- The kinds that reach the frame buffer (20_memory R63). -/
def Instr.reachesScreen : Instr → Bool
  | .cls _ | .drw _ _ _ => true
  | .sys _ | .ret _ | .jp _ | .call _ | .seVxNn _ _ | .sneVxNn _ _ | .seVxVy _ _ | .ldVxNn _ _ | .addVxNn _ _
  | .ldVxVy _ _ | .orVxVy _ _ | .andVxVy _ _ | .xorVxVy _ _ | .addVxVy _ _ | .subVxVy _ _ | .shrVx _ _ | .subnVxVy _ _
  | .shlVx _ _ | .sneVxVy _ _ | .ldI _ | .jpV0 _ | .rnd _ _ | .skp _ | .sknp _ | .ldVxDt _ | .ldVxK _ | .ldDtVx _ | .ldStVx _
  | .addIVx _ | .ldFVx _ | .ldBVx _ | .ldMemVx _ | .ldVxMem _ => false

end Sys2Proof

namespace Sys2Proof.Machine

/-! ## Comparing two runs -/

/-- A result with its next state changed by `f`. -/
def mapNext (f : State → State) : Result → Result
  | .next t => .next (f t)
  | .fault r => .fault r
  | .refused r => .refused r

/-! ## Sequences of instructions, host runs -/

/-- Instructions executed one after the other, stopping at the first that does not answer a next state. -/
def execSeq : List Instr → State → Result
  | [], s => .next s
  | i :: rest, s =>
    match exec i s with
    | .next t => execSeq rest t
    | .fault r => .fault r
    | .refused r => .refused r

/-- `n` ticks in a row (60_exceptions R240). -/
def ticks : Nat → State → State
  | 0, s => s
  | n + 1, s => ticks n (tick s)

/-! ## Drawing (44_display R192) -/

/-- Whether DXYN in `s` has a set sprite bit on pixel (`px`, `py`): bit 7 - col of the byte at I + row, for a row below N and a column below 8
with `(VX + col) mod FB_W = px` and `(VY + row) mod FB_H = py` (44_display R192). -/
def drawsOn (s : State) (x y : Reg) (n : Nibble) (px : Fin Config.fbW) (py : Fin Config.fbH) : Prop :=
  ∃ row col, row < n.toNat ∧ col < 8 ∧ (Memory.read s.mem (s.i.toNat + row)).getLsbD (7 - col) = true ∧
    ((s.getV x).toNat + col) % 64 = px.val ∧ ((s.getV y).toNat + row) % 32 = py.val

/-! ## End of a run -/

/-- A run is finished at `h`: PC is `h`, and the word at `h` is a jump to `h` (70_reset R269). -/
def State.finishedAt (s : State) (h : Addr) : Prop :=
  s.pc = addrWord h ∧ fetchable (addrWord h) ∧ fetch s = .word (0x1000#16 ||| addrWord h)

end Sys2Proof.Machine
end

