-- ==== Sys2Proof/Certificates/Slice0/Obligations.lean ====
section
/-! DEFINITION. The statements for the provers, from the numbered rules of the spec. Where a clause rests on a decision (D<n>) or a general-knowledge
passage (G<n>) that the spec marks as its own, the docstring names it. -/

open Sys2Proof Sys2Proof.Machine

/-! ## Encoding -/

/-- Decode after encode gives the instruction back, on the word and on bytes with anything after them (30_encoding sections 1 to 3; the keys are G4 and D7). -/
def Obligations.DecodeOfEncodeIsTheInstruction : Prop :=
  ∀ (i : Instr) (rest : List Byte), i.wf = true →
    decode (encode i) = .instr i ∧ decodeBytes (encodeBytes i ++ rest) = .word (.instr i) rest

/-- A word that decodes to an instruction is that instruction's word, and the instruction is well-formed (30_encoding sections 1 to 3; G4, D7). -/
def Obligations.EncodeOfDecodeIsTheWord : Prop :=
  ∀ (w : Word) (i : Instr), decode w = .instr i → i.wf = true ∧ encode i = w

/-- The UNKNOWN words are exactly those listed under 30_encoding section 4 (D7 for the families 5 and 9, G4), and the report holds the word itself. -/
def Obligations.UnknownWordsAreExactlyTheListed : Prop :=
  ∀ w : Word,
    (∀ u, decode w = .unknown u → u = w) ∧
    (decode w = .unknown w ↔
      (w.toNat / 4096 = 0x5 ∧ w.toNat % 16 ≠ 0) ∨
      (w.toNat / 4096 = 0x8 ∧ w.toNat % 16 ∈ [0x8, 0x9, 0xA, 0xB, 0xC, 0xD, 0xF]) ∨
      (w.toNat / 4096 = 0x9 ∧ w.toNat % 16 ≠ 0) ∨
      (w.toNat / 4096 = 0xE ∧ w.toNat % 256 ∉ [0x9E, 0xA1]) ∨
      (w.toNat / 4096 = 0xF ∧ w.toNat % 256 ∉ [0x07, 0x0A, 0x15, 0x18, 0x1E, 0x29, 0x33, 0x55, 0x65]))

/-- Words written out from the spec's scenarios and vectors, one or more of each of the 16 families, decode to what they stand for, and 0xFFFF to UNKNOWN
(95_test_vectors L1, L2 and L3; D7, G4). -/
def Obligations.SampleWordsDecode : Prop :=
  decode 0x00E0#16 = .instr (.cls 0x0) ∧ decode 0x00EE#16 = .instr (.ret 0x0) ∧ decode 0x0123#16 = .instr (.sys 0x123) ∧
  decode 0x1234#16 = .instr (.jp 0x234) ∧ decode 0x2210#16 = .instr (.call 0x210) ∧ decode 0x31FF#16 = .instr (.seVxNn 0x1 0xFF) ∧
  decode 0x41FF#16 = .instr (.sneVxNn 0x1 0xFF) ∧ decode 0x5120#16 = .instr (.seVxVy 0x1 0x2) ∧
  decode 0x6A05#16 = .instr (.ldVxNn 0xA 0x05) ∧ decode 0x7A03#16 = .instr (.addVxNn 0xA 0x03) ∧
  decode 0x8014#16 = .instr (.addVxVy 0x0 0x1) ∧ decode 0x9120#16 = .instr (.sneVxVy 0x1 0x2) ∧ decode 0xA2F0#16 = .instr (.ldI 0x2F0) ∧
  decode 0xB300#16 = .instr (.jpV0 0x300) ∧ decode 0xC30F#16 = .instr (.rnd 0x3 0x0F) ∧ decode 0xD011#16 = .instr (.drw 0x0 0x1 0x1) ∧
  decode 0xE29E#16 = .instr (.skp 0x2) ∧ decode 0xF355#16 = .instr (.ldMemVx 0x3) ∧ decode 0xF00A#16 = .instr (.ldVxK 0x0) ∧
  decode 0xFFFF#16 = .unknown 0xFFFF#16

/-- Words whose low byte is 0xE0 or 0xEE in family 0 are CLS and RET for every `op[11:8]`, never SYS (30_encoding section 3, derived there; G17, G7). -/
def Obligations.FamilyZeroAliasesAreClsAndRet : Prop :=
  ∀ z : Nibble, decode (0x0#4 ++ z ++ 0xE0#8) = .instr (.cls z) ∧ decode (0x0#4 ++ z ++ 0xEE#8) = .instr (.ret z)

/-! ## The step -/

/-- When the big-endian word at an even PC with two bytes in range decodes to `i`, the next transaction being a step, the machine's move is
`exec i` on the state with the opcode latch written (D6) and the transaction taken off `pending` (the model's own list, log 6). -/
def Obligations.StepRunsTheDecodedInstruction : Prop :=
  ∀ (s : State) (w : Word) (i : Instr), s.nextAction = .step → s.pc.toNat % 2 = 0 → s.pc.toNat ≤ 0xFFE →
    w.toNat = 256 * (Memory.read s.mem s.pc.toNat).toNat + (Memory.read s.mem (s.pc.toNat + 1)).toNat → decode w = .instr i →
    i.wf = true ∧ step s = exec i { s with opcode := w, pending := s.pending.tail }

/-- A step on an UNKNOWN word: the latch is written, PC advances by 2, the word is reported, nothing else changes but `pending`, and the answer is
a next state (60_exceptions R232). -/
def Obligations.UnknownWordIsReportedAndSkipped : Prop :=
  ∀ (s : State) (w : Word), s.nextAction = .step → s.pc.toNat % 2 = 0 → s.pc.toNat ≤ 0xFFE →
    w.toNat = 256 * (Memory.read s.mem s.pc.toNat).toNat + (Memory.read s.mem (s.pc.toNat + 1)).toNat → decode w = .unknown w →
    step s = .next { s with opcode := w, pc := s.pc + 2, pending := s.pending.tail, report := .unknownOpcode w }

/-- The fetch checks: out of range first, with the info max(PC, 0x1000), then the odd PC (20_memory section 3; D3, D4, D30). -/
def Obligations.FetchChecksRangeThenAlignment : Prop :=
  ∀ s : State, s.nextAction = .step →
    (0xFFE < s.pc.toNat → step s = .fault (.addressOutOfRange (BitVec.ofNat 16 (max s.pc.toNat 0x1000)) .fetch s.pc)) ∧
    (s.pc.toNat ≤ 0xFFE → s.pc.toNat % 2 = 1 → step s = .fault (.misalignedPc s.pc))

/-- When a step ends in a fatal outcome, the state the host is left with differs only in the opcode latch, that only when the fetch succeeded (and in the
model's own `pending` and `report`), and a further step ends in the same fatal outcome with the same info (60_exceptions sections 1; D5, D6, D35). -/
def Obligations.FatalOutcomeLeavesTheStateAndRecurs : Prop :=
  ∀ (s : State) (f : Fault), s.nextAction = .step → step s = .fault f →
    ∃ w, afterFatal f s = { s with opcode := w, pending := s.pending.tail, report := .fatal f } ∧
      (if s.pc.toNat % 2 = 0 ∧ s.pc.toNat ≤ 0xFFE then
        w.toNat = 256 * (Memory.read s.mem s.pc.toNat).toNat + (Memory.read s.mem (s.pc.toNat + 1)).toNat
      else w = s.opcode) ∧
      ((afterFatal f s).nextAction = .step → step (afterFatal f s) = .fault f)

/-- An instruction ends in a fatal outcome exactly in the cases of the table of outcomes, with the info given there, and is never refused
(60_exceptions section 1; D23, D30). -/
def Obligations.InstructionsFailExactlyAsListed : Prop :=
  ∀ (i : Instr) (s : State),
    (∀ r, exec i s ≠ .refused r) ∧
    ∀ f, exec i s = .fault f ↔
      (∃ nnn, i = .call nnn ∧ 16 ≤ s.stack.length ∧ f = .stackOverflow s.pc) ∨
      (∃ z, i = .ret z ∧ s.stack = [] ∧ f = .stackUnderflow s.pc) ∨
      (∃ x y n, i = .drw x y n ∧ 0 < n.toNat ∧ 0xFFF < s.i.toNat + n.toNat - 1 ∧
        f = .addressOutOfRange (BitVec.ofNat 16 (max s.i.toNat 0x1000)) .read s.pc) ∨
      (∃ x, i = .ldBVx x ∧ 0xFFF < s.i.toNat + 2 ∧
        f = .addressOutOfRange (BitVec.ofNat 16 (max s.i.toNat 0x1000)) .write s.pc) ∨
      (∃ x, i = .ldMemVx x ∧ 0xFFF < s.i.toNat + x.toNat ∧
        f = .addressOutOfRange (BitVec.ofNat 16 (max s.i.toNat 0x1000)) .write s.pc) ∨
      (∃ x, i = .ldVxMem x ∧ 0xFFF < s.i.toNat + x.toNat ∧
        f = .addressOutOfRange (BitVec.ofNat 16 (max s.i.toNat 0x1000)) .read s.pc)

/-! ## Flow -/

/-- SYS only advances the PC by 2 (40_flow section 2; D8, G6). -/
def Obligations.SysOnlyAdvances : Prop :=
  ∀ (nnn : Addr) (s : State), ∃ t, exec (.sys nnn) s = .next t ∧ t.pc = s.pc + 2 ∧ t.report = .ok ∧ KeptExcept {} s t

/-- JP lands on NNN and JP V0 on NNN + V0, not wrapped to 12 bits; nothing else changes (40_flow section 3; D12, G7, G8). -/
def Obligations.JumpsLandOnTheirTarget : Prop :=
  ∀ (nnn : Addr) (s : State),
    (∃ t, exec (.jp nnn) s = .next t ∧ t.pc.toNat = nnn.toNat ∧ t.report = .ok ∧ KeptExcept {} s t) ∧
    (∃ t, exec (.jpV0 nnn) s = .next t ∧ t.pc.toNat = nnn.toNat + (s.getV 0x0).toNat ∧ t.report = .ok ∧ KeptExcept {} s t)

/-- CALL pushes its own address and jumps to NNN; with 16 entries held it ends in STACK_OVERFLOW (40_flow section 3; D26, G7). -/
def Obligations.CallPushesItsOwnAddress : Prop :=
  ∀ (nnn : Addr) (s : State),
    (s.stack.length < 16 → ∃ t, exec (.call nnn) s = .next t ∧ t.stack = s.pc :: s.stack ∧ t.pc.toNat = nnn.toNat ∧
      t.report = .ok ∧ KeptExcept { stack := true } s t) ∧
    (s.stack.length = 16 → exec (.call nnn) s = .fault (.stackOverflow s.pc))

/-- RET pops the most recent entry and resumes two bytes after it; with an empty stack it ends in STACK_UNDERFLOW (40_flow section 3; G7). -/
def Obligations.RetResumesAfterTheCall : Prop :=
  ∀ (z : Nibble) (s : State),
    (∀ a below, s.stack = a :: below → ∃ t, exec (.ret z) s = .next t ∧ t.stack = below ∧ t.pc = a + 2 ∧
      t.report = .ok ∧ KeptExcept { stack := true } s t) ∧
    (s.stack = [] → exec (.ret z) s = .fault (.stackUnderflow s.pc))

/-- N nested calls and then N returns, for any targets that fit on the stack, come back two bytes after the first call with the stack as it was
(40_flow section 3, derived there from RET and CALL; D26, G7). -/
def Obligations.NestedCallsUnwind : Prop :=
  ∀ (targets : List Addr) (z : Nibble) (s : State), targets ≠ [] → s.stack.length + targets.length ≤ 16 →
    ∃ t, execSeq (targets.map Instr.call ++ List.replicate targets.length (.ret z)) s = .next t ∧
      t.pc = s.pc + 2 ∧ t.stack = s.stack ∧ KeptExcept {} s t

/-! ## Skips -/

/-- SE and SNE with a byte: PC + 4 on their condition, else PC + 2, nothing else changes (41_skips sections 1 and 2; G9). -/
def Obligations.ByteSkipsAdvanceByFourOrTwo : Prop :=
  ∀ (x : Reg) (nn : Byte) (s : State),
    (∃ t, exec (.seVxNn x nn) s = .next t ∧ t.pc = s.pc + (if s.getV x = nn then 4 else 2) ∧ t.report = .ok ∧ KeptExcept {} s t) ∧
    (∃ t, exec (.sneVxNn x nn) s = .next t ∧ t.pc = s.pc + (if s.getV x = nn then 2 else 4) ∧ t.report = .ok ∧ KeptExcept {} s t)

/-- SE and SNE with a register: PC + 4 on their condition, else PC + 2, nothing else changes (41_skips sections 1 and 2; G9). -/
def Obligations.RegisterSkipsAdvanceByFourOrTwo : Prop :=
  ∀ (x y : Reg) (s : State),
    (∃ t, exec (.seVxVy x y) s = .next t ∧ t.pc = s.pc + (if s.getV x = s.getV y then 4 else 2) ∧ t.report = .ok ∧ KeptExcept {} s t) ∧
    (∃ t, exec (.sneVxVy x y) s = .next t ∧ t.pc = s.pc + (if s.getV x = s.getV y then 2 else 4) ∧ t.report = .ok ∧ KeptExcept {} s t)

/-- SKP and SKNP test the key whose number is the low nibble of VX: PC + 4 when it is down (up), else PC + 2 (41_skips section 3; D16, G10). -/
def Obligations.KeySkipsTestTheLowNibbleKey : Prop :=
  ∀ (x : Reg) (s : State),
    (∃ t, exec (.skp x) s = .next t ∧ t.pc = s.pc + (if s.keys.getLsbD ((s.getV x).toNat % 16) then 4 else 2) ∧ t.report = .ok ∧
      KeptExcept {} s t) ∧
    (∃ t, exec (.sknp x) s = .next t ∧ t.pc = s.pc + (if s.keys.getLsbD ((s.getV x).toNat % 16) then 2 else 4) ∧ t.report = .ok ∧
      KeptExcept {} s t)

/-! ## ALU -/

/-- LD Vx, byte and LD Vx, Vy write VX only (42_alu sections 1 and 2; G11, G12). -/
def Obligations.RegisterLoadsWriteOnlyTheDestination : Prop :=
  ∀ (x y : Reg) (nn : Byte) (s : State),
    (∃ t, exec (.ldVxNn x nn) s = .next t ∧ t.getV x = nn ∧ t.pc = s.pc + 2 ∧ t.report = .ok ∧ KeptExcept { regs := [x] } s t) ∧
    (∃ t, exec (.ldVxVy x y) s = .next t ∧ t.getV x = s.getV y ∧ t.pc = s.pc + 2 ∧ t.report = .ok ∧ KeptExcept { regs := [x] } s t)

/-- ADD Vx, byte adds modulo 256 and leaves VF alone unless it is the destination (42_alu section 1; G11). -/
def Obligations.AddByteWrapsWithoutFlag : Prop :=
  ∀ (x : Reg) (nn : Byte) (s : State), ∃ t, exec (.addVxNn x nn) s = .next t ∧
    (t.getV x).toNat = ((s.getV x).toNat + nn.toNat) % 256 ∧ (x ≠ vF → t.getV vF = s.getV vF) ∧ t.pc = s.pc + 2 ∧ t.report = .ok ∧
    KeptExcept { regs := [x] } s t

/-- OR, AND and XOR bit by bit; VF is left alone unless it is the destination (42_alu section 2; D10, G12). -/
def Obligations.LogicIsBitwiseWithoutFlag : Prop :=
  ∀ (x y : Reg) (s : State),
    (∃ t, exec (.orVxVy x y) s = .next t ∧ (∀ k, (t.getV x).getLsbD k = ((s.getV x).getLsbD k || (s.getV y).getLsbD k)) ∧
      t.pc = s.pc + 2 ∧ t.report = .ok ∧ KeptExcept { regs := [x] } s t) ∧
    (∃ t, exec (.andVxVy x y) s = .next t ∧ (∀ k, (t.getV x).getLsbD k = ((s.getV x).getLsbD k && (s.getV y).getLsbD k)) ∧
      t.pc = s.pc + 2 ∧ t.report = .ok ∧ KeptExcept { regs := [x] } s t) ∧
    (∃ t, exec (.xorVxVy x y) s = .next t ∧ (∀ k, (t.getV x).getLsbD k = ((s.getV x).getLsbD k ^^ (s.getV y).getLsbD k)) ∧
      t.pc = s.pc + 2 ∧ t.report = .ok ∧ KeptExcept { regs := [x] } s t)

/-- ADD Vx, Vy: the sum modulo 256 in VX, and in VF, unless VF is the destination, 1 iff the exact sum of the old values exceeds 255; with X = F
the sum stays in VF (42_alu section 2; the order of the two writes and the latched operands are D9). -/
def Obligations.AddReportsTheCarry : Prop :=
  ∀ (x y : Reg) (s : State), ∃ t, exec (.addVxVy x y) s = .next t ∧
    (t.getV x).toNat = ((s.getV x).toNat + (s.getV y).toNat) % 256 ∧
    (x ≠ vF → t.getV vF = if 255 < (s.getV x).toNat + (s.getV y).toNat then 1 else 0) ∧
    t.pc = s.pc + 2 ∧ t.report = .ok ∧ KeptExcept { regs := [vF, x] } s t

/-- SUB and SUBN: the difference modulo 256 in VX, and in VF, unless VF is the destination, 1 iff there is no borrow (42_alu section 2; D9; the
operand order of SUBN is G13). -/
def Obligations.SubtractionsReportNoBorrow : Prop :=
  ∀ (x y : Reg) (s : State),
    (∃ t, exec (.subVxVy x y) s = .next t ∧
      (t.getV x).toNat = ((s.getV x).toNat + 256 - (s.getV y).toNat) % 256 ∧
      (x ≠ vF → t.getV vF = if (s.getV y).toNat ≤ (s.getV x).toNat then 1 else 0) ∧
      t.pc = s.pc + 2 ∧ t.report = .ok ∧ KeptExcept { regs := [vF, x] } s t) ∧
    (∃ t, exec (.subnVxVy x y) s = .next t ∧
      (t.getV x).toNat = ((s.getV y).toNat + 256 - (s.getV x).toNat) % 256 ∧
      (x ≠ vF → t.getV vF = if (s.getV x).toNat ≤ (s.getV y).toNat then 1 else 0) ∧
      t.pc = s.pc + 2 ∧ t.report = .ok ∧ KeptExcept { regs := [vF, x] } s t)

/-- SHR and SHL shift VX by one in place, whatever Y is, and VF, unless it is the destination, gets the bit shifted out (42_alu section 2; D9, D11). -/
def Obligations.ShiftsReportTheBitShiftedOut : Prop :=
  ∀ (x y : Reg) (s : State),
    (∃ t, exec (.shrVx x y) s = .next t ∧ (t.getV x).toNat = (s.getV x).toNat / 2 ∧
      (x ≠ vF → (t.getV vF).toNat = (s.getV x).toNat % 2) ∧
      t.pc = s.pc + 2 ∧ t.report = .ok ∧ KeptExcept { regs := [vF, x] } s t) ∧
    (∃ t, exec (.shlVx x y) s = .next t ∧ (t.getV x).toNat = 2 * (s.getV x).toNat % 256 ∧
      (x ≠ vF → (t.getV vF).toNat = (s.getV x).toNat / 128) ∧
      t.pc = s.pc + 2 ∧ t.report = .ok ∧ KeptExcept { regs := [vF, x] } s t)

/-- RND: VX is the draw ANDed with NN, for every draw a harness fixes and for the free one otherwise; exactly one draw is taken (42_alu section 3;
D25; the queue and the count are the model's own, log 5). -/
def Obligations.RandomByteIsMasked : Prop :=
  ∀ (x : Reg) (nn : Byte) (s : State), ∃ t, exec (.rnd x nn) s = .next t ∧
    (∀ r rest, s.rngQueue = r :: rest → t.getV x = r &&& nn) ∧
    (s.rngQueue = [] → t.getV x = Config.randomByte s.rngDraws &&& nn) ∧
    t.rngQueue = s.rngQueue.tail ∧ t.rngDraws = s.rngDraws + 1 ∧
    t.pc = s.pc + 2 ∧ t.report = .ok ∧ KeptExcept { regs := [x], random := true } s t

/-- Every instruction but RND takes no draw and answers alike whatever the random source holds (42_alu section 3: "none by any other instruction"; D25). -/
def Obligations.OnlyRndReadsTheRandomSource : Prop :=
  ∀ (i : Instr) (s : State) (q : List Byte) (d : Nat), (∀ x nn, i ≠ .rnd x nn) →
    exec i { s with rngQueue := q, rngDraws := d } = mapNext (fun t => { t with rngQueue := q, rngDraws := d }) (exec i s)

/-! ## Index register and memory -/

/-- LD I, ADD I and LD F write I only: NNN, the sum modulo 2^16, the glyph of the low nibble of VX; VF stays (43_index_memory section 1; D13, D14,
G14, G15). -/
def Obligations.IndexInstructionsWriteOnlyTheIndex : Prop :=
  ∀ (nnn : Addr) (x : Reg) (s : State),
    (∃ t, exec (.ldI nnn) s = .next t ∧ t.i.toNat = nnn.toNat ∧ t.pc = s.pc + 2 ∧ t.report = .ok ∧ KeptExcept { index := true } s t) ∧
    (∃ t, exec (.addIVx x) s = .next t ∧ t.i.toNat = (s.i.toNat + (s.getV x).toNat) % 65536 ∧ t.pc = s.pc + 2 ∧ t.report = .ok ∧
      KeptExcept { index := true } s t) ∧
    (∃ t, exec (.ldFVx x) s = .next t ∧ t.i.toNat = 5 * ((s.getV x).toNat % 16) ∧ t.pc = s.pc + 2 ∧ t.report = .ok ∧
      KeptExcept { index := true } s t)

/-- LD B stores the decimal digits of VX at I, I+1, I+2 and nothing else (43_index_memory section 2; D4, D30, the order of the digits is G16); past
0xFFF it ends in ADDRESS_OUT_OF_RANGE. -/
def Obligations.DecimalDigitsAreStored : Prop :=
  ∀ (x : Reg) (s : State), Memory.wf s.mem →
    (s.i.toNat + 2 ≤ 0xFFF → ∃ t, exec (.ldBVx x) s = .next t ∧
      (Memory.read t.mem s.i.toNat).toNat ≤ 2 ∧ (Memory.read t.mem (s.i.toNat + 1)).toNat ≤ 9 ∧
      (Memory.read t.mem (s.i.toNat + 2)).toNat ≤ 9 ∧
      (s.getV x).toNat = 100 * (Memory.read t.mem s.i.toNat).toNat + 10 * (Memory.read t.mem (s.i.toNat + 1)).toNat +
        (Memory.read t.mem (s.i.toNat + 2)).toNat ∧
      (∀ a, a < s.i.toNat ∨ s.i.toNat + 2 < a → Memory.read t.mem a = Memory.read s.mem a) ∧
      t.pc = s.pc + 2 ∧ t.report = .ok ∧ KeptExcept { memory := true } s t) ∧
    (0xFFF < s.i.toNat + 2 →
      exec (.ldBVx x) s = .fault (.addressOutOfRange (BitVec.ofNat 16 (max s.i.toNat 0x1000)) .write s.pc))

/-- LD [I], Vx stores V0 to VX from I on and nothing else, and moves I by X + 1 iff the switch is set, which holds for both settings of it
(43_index_memory section 2; D4, D15, D30); past 0xFFF it ends in ADDRESS_OUT_OF_RANGE. -/
def Obligations.RegistersAreStored : Prop :=
  ∀ (x : Reg) (s : State), Memory.wf s.mem →
    (s.i.toNat + x.toNat ≤ 0xFFF → ∃ t, exec (.ldMemVx x) s = .next t ∧
      (∀ k : Reg, k.toNat ≤ x.toNat → Memory.read t.mem (s.i.toNat + k.toNat) = s.getV k) ∧
      (∀ a, a < s.i.toNat ∨ s.i.toNat + x.toNat < a → Memory.read t.mem a = Memory.read s.mem a) ∧
      t.i.toNat = (if s.params.loadStoreIncrementsI then s.i.toNat + x.toNat + 1 else s.i.toNat) ∧
      t.pc = s.pc + 2 ∧ t.report = .ok ∧ KeptExcept { memory := true, index := true } s t) ∧
    (0xFFF < s.i.toNat + x.toNat →
      exec (.ldMemVx x) s = .fault (.addressOutOfRange (BitVec.ofNat 16 (max s.i.toNat 0x1000)) .write s.pc))

/-- LD Vx, [I] loads V0 to VX from I on, leaves the registers above X and memory alone, and moves I by X + 1 iff the switch is set; past 0xFFF it
ends in ADDRESS_OUT_OF_RANGE and nothing is loaded (43_index_memory R175). -/
def Obligations.RegistersAreLoaded : Prop :=
  ∀ (x : Reg) (s : State),
    (s.i.toNat + x.toNat ≤ 0xFFF → ∃ t, exec (.ldVxMem x) s = .next t ∧
      (∀ k : Reg, k.toNat ≤ x.toNat → t.getV k = Memory.read s.mem (s.i.toNat + k.toNat)) ∧
      (∀ k : Reg, x.toNat < k.toNat → t.getV k = s.getV k) ∧
      t.i.toNat = (if s.params.loadStoreIncrementsI then s.i.toNat + x.toNat + 1 else s.i.toNat) ∧
      t.pc = s.pc + 2 ∧ t.report = .ok ∧ KeptExcept { regs := regsThrough x, index := true } s t) ∧
    (0xFFF < s.i.toNat + x.toNat →
      exec (.ldVxMem x) s = .fault (.addressOutOfRange (BitVec.ofNat 16 (max s.i.toNat 0x1000)) .read s.pc))

/-- What LD [I], Vx stores, LD Vx, [I] loads back, in any state with that memory and the I of the store (43_index_memory section 2; D15). -/
def Obligations.StoredRegistersLoadBack : Prop :=
  ∀ (x : Reg) (s t u : State), Memory.wf s.mem → exec (.ldMemVx x) s = .next t → u.mem = t.mem → u.i = s.i →
    ∃ v, exec (.ldVxMem x) u = .next v ∧ ∀ k : Reg, k.toNat ≤ x.toNat → v.getV k = s.getV k

/-- A word that LD [I], Vx has just stored over the next PC is what the fetch reads, big-endian (20_memory section 7; D29). -/
def Obligations.FetchSeesTheStore : Prop :=
  ∀ (x k l : Reg) (s t : State), Memory.wf s.mem → exec (.ldMemVx x) s = .next t → k.toNat + 1 = l.toNat → l.toNat ≤ x.toNat →
    t.pc.toNat = s.i.toNat + k.toNat → t.pc.toNat % 2 = 0 →
    ∃ w : Word, fetch t = .word w ∧ w.toNat = 256 * (s.getV k).toNat + (s.getV l).toNat

/-! ## Display -/

/-- CLS unsets every pixel and changes nothing else (44_display section 2; G17). -/
def Obligations.ClsUnsetsEveryPixel : Prop :=
  ∀ (z : Nibble) (s : State), ∃ t, exec (.cls z) s = .next t ∧ (∀ px py, Frame.get t.fb px py = false) ∧
    t.pc = s.pc + 2 ∧ t.report = .ok ∧ KeptExcept { screen := true } s t

/-- DRW inverts exactly the pixels under a set sprite bit, wrapped on both axes, and sets VF to 1 iff one of them was set, else to 0, also when X or Y is F;
past 0xFFF it ends in ADDRESS_OUT_OF_RANGE (44_display section 2; D9, D18, D19, D30, G18). -/
def Obligations.DrawXorsTheSpriteAndReportsCollision : Prop :=
  ∀ (x y : Reg) (n : Nibble) (s : State),
    (n.toNat = 0 ∨ s.i.toNat + n.toNat - 1 ≤ 0xFFF → ∃ t, exec (.drw x y n) s = .next t ∧
      (∀ px py, Frame.get t.fb px py = true ↔ (Frame.get s.fb px py = true ↔ ¬ drawsOn s x y n px py)) ∧
      ((t.getV vF = 1 ∧ ∃ px py, drawsOn s x y n px py ∧ Frame.get s.fb px py = true) ∨
        (t.getV vF = 0 ∧ ¬ ∃ px py, drawsOn s x y n px py ∧ Frame.get s.fb px py = true)) ∧
      t.pc = s.pc + 2 ∧ t.report = .ok ∧ KeptExcept { regs := [vF], screen := true } s t) ∧
    (¬ (n.toNat = 0 ∨ s.i.toNat + n.toNat - 1 ≤ 0xFFF) →
      exec (.drw x y n) s = .fault (.addressOutOfRange (BitVec.ofNat 16 (max s.i.toNat 0x1000)) .read s.pc))

/-- Drawing the same sprite twice at the same position restores every pixel, and the second draw reports a collision iff the first set a pixel
(44_display section 2, derived there; D18). The second draw may be of any state with the frame buffer the first left. -/
def Obligations.DrawingTwiceRestoresTheScreen : Prop :=
  ∀ (x y : Reg) (n : Nibble) (s t u : State), exec (.drw x y n) s = .next t → u.fb = t.fb → u.mem = s.mem → u.i = s.i →
    u.getV x = s.getV x → u.getV y = s.getV y →
    ∃ v, exec (.drw x y n) u = .next v ∧ v.fb = s.fb ∧
      (v.getV vF = 1 ↔ ∃ px py, Frame.get s.fb px py = false ∧ Frame.get t.fb px py = true)

/-! ## Timers and keys -/

/-- FX07, FX15 and FX18 copy between VX and the timers and change nothing else (45_timers_keys section 2; G19). -/
def Obligations.TimerMovesCopyOneByte : Prop :=
  ∀ (x : Reg) (s : State),
    (∃ t, exec (.ldVxDt x) s = .next t ∧ t.getV x = s.dt ∧ t.pc = s.pc + 2 ∧ t.report = .ok ∧ KeptExcept { regs := [x] } s t) ∧
    (∃ t, exec (.ldDtVx x) s = .next t ∧ t.dt = s.getV x ∧ t.pc = s.pc + 2 ∧ t.report = .ok ∧ KeptExcept { delay := true } s t) ∧
    (∃ t, exec (.ldStVx x) s = .next t ∧ t.st = s.getV x ∧ t.pc = s.pc + 2 ∧ t.report = .ok ∧ KeptExcept { sound := true } s t)

/-- FX0A with a key down: VX is the number of the lowest key that is down (45_timers_keys section 2; D17). -/
def Obligations.KeyWaitStoresTheLowestKey : Prop :=
  ∀ (x : Reg) (s : State), (∃ k, k < 16 ∧ s.keys.getLsbD k = true) → ∃ t, exec (.ldVxK x) s = .next t ∧
    s.keys.getLsbD (t.getV x).toNat = true ∧ (∀ j, j < (t.getV x).toNat → s.keys.getLsbD j = false) ∧
    t.pc = s.pc + 2 ∧ t.report = .ok ∧ KeptExcept { regs := [x] } s t

/-- A step on FX0A with no key down changes nothing but the opcode latch (and the model's own `pending` and `report`, which is WAIT_KEY), and the next
step executes the same FX0A again, on a latch that already holds the word (60_exceptions R233). -/
def Obligations.KeyWaitRetriesTheSameStep : Prop :=
  ∀ (x : Reg) (s : State) (w : Word), s.nextAction = .step → s.pc.toNat % 2 = 0 → s.pc.toNat ≤ 0xFFE →
    w.toNat = 256 * (Memory.read s.mem s.pc.toNat).toNat + (Memory.read s.mem (s.pc.toNat + 1)).toNat →
    decode w = .instr (.ldVxK x) → s.keys = 0 →
    ∃ t, step s = .next t ∧ t = { s with opcode := w, pending := s.pending.tail, report := .waitKey } ∧
      (t.nextAction = .step → step t = exec (.ldVxK x) t.dequeued ∧ step t = .next { t with pending := t.pending.tail })

/-! ## Host transactions -/

/-- A tick decrements both timers by 1, floored at 0, reports a tone iff ST was 1, and touches nothing else but the model's own `pending`
(60_exceptions R240). -/
def Obligations.TickDecrementsBothTimers : Prop :=
  ∀ s : State, s.nextAction = .tick → ∃ d u, step s =
      .next { s with dt := d, st := u, report := .tone (decide (s.st.toNat = 1)), pending := s.pending.tail } ∧
    d.toNat = s.dt.toNat - 1 ∧ u.toNat = s.st.toNat - 1

/-- With ST at v and left alone, the n-th following tick reports a tone iff n = v, and leaves both timers n lower, floored at 0
(60_exceptions section 3; D34). -/
def Obligations.ToneIsDueOnceOnTheVthTick : Prop :=
  ∀ (n : Nat) (s : State), 1 ≤ n → (ticks n s).report = .tone (decide (n = s.st.toNat)) ∧
    (ticks n s).st.toNat = s.st.toNat - n ∧ (ticks n s).dt.toNat = s.dt.toNat - n

/-- The state right after reset holds the spec's reset values (10_state section 10; the PC is D2, the FONT bytes are G1) and, for what the spec does not
reset, the model's choices: a blank screen, no key, no draw, the default arguments (logs 1 to 7). -/
def Obligations.ResetStateHoldsTheResetValues : Prop :=
  (∀ a : Fin 80, Memory.read State.reset.mem a.val = defaultFont[a]) ∧ (∀ a, 80 ≤ a → Memory.read State.reset.mem a = 0) ∧
  (∀ y, State.reset.getV y = 0) ∧ State.reset.i = 0 ∧ State.reset.pc = 0x200 ∧ State.reset.stack = [] ∧ State.reset.dt = 0 ∧
  State.reset.st = 0 ∧ State.reset.opcode = 0 ∧ (∀ px py, Frame.get State.reset.fb px py = false) ∧ State.reset.keys = 0 ∧
  State.reset.params.loadStoreIncrementsI = false ∧ State.reset.params.font = defaultFont ∧ State.reset.rngQueue = [] ∧
  State.reset.rngDraws = 0 ∧ State.reset.pending = [] ∧ State.reset.report = .done

/-- The host's reset puts every field of the architectural state to its reset value, with the FONT argument at 0x000, and leaves the frame buffer, the
key state, the random source and the arguments alone (70_reset section 1; D2, D22). -/
def Obligations.HostResetRestoresTheArchitecturalState : Prop :=
  ∀ s : State, s.nextAction = .reset → ∃ t, step s = .next t ∧
    (∀ a : Fin 80, Memory.read t.mem a.val = s.params.font[a]) ∧ (∀ a, 80 ≤ a → Memory.read t.mem a = 0) ∧
    (∀ y, t.getV y = 0) ∧ t.i = 0 ∧ t.pc = 0x200 ∧ t.stack = [] ∧ t.dt = 0 ∧ t.st = 0 ∧ t.opcode = 0 ∧
    t.fb = s.fb ∧ t.keys = s.keys ∧ t.rngQueue = s.rngQueue ∧ t.rngDraws = s.rngDraws ∧ t.params = s.params ∧
    t.pending = s.pending.tail

/-- A load of at most 3584 bytes is a reset and then the ROM byte for byte from 0x200; a larger one changes nothing and reports ROM_TOO_LARGE
(70_reset section 2; D2, D22, D27). -/
def Obligations.LoadCopiesTheRomOrRejectsIt : Prop :=
  ∀ (s : State) (rom : List Byte), s.nextAction = .load rom →
    (3584 < rom.length → step s = .next { s with report := .romTooLarge, pending := s.pending.tail }) ∧
    (rom.length ≤ 3584 → ∃ t, step s = .next t ∧ t.report = .loadOk ∧
      (∀ k : Fin rom.length, Memory.read t.mem (0x200 + k.val) = rom[k]) ∧
      (∀ a : Fin 80, Memory.read t.mem a.val = s.params.font[a]) ∧
      (∀ a, 80 ≤ a → a < 0x200 ∨ 0x200 + rom.length ≤ a → Memory.read t.mem a = 0) ∧
      (∀ y, t.getV y = 0) ∧ t.i = 0 ∧ t.pc = 0x200 ∧ t.stack = [] ∧ t.dt = 0 ∧ t.st = 0 ∧ t.opcode = 0 ∧
      t.fb = s.fb ∧ t.keys = s.keys ∧ t.rngQueue = s.rngQueue ∧ t.rngDraws = s.rngDraws ∧ t.params = s.params ∧
      t.pending = s.pending.tail)

/-- Saving gives a snapshot and changes nothing; restoring the snapshot of a state that meets the invariant, whatever state it is restored into, sets every
architectural field and the frame buffer to the saved values and leaves the rest (10_state section 11, at the level of fields, D28). -/
def Obligations.SnapshotsRoundTrip : Prop :=
  (∀ s : State, s.nextAction = .save → step s = .next { s with pending := s.pending.tail, report := .saved s.snapshot }) ∧
  ∀ s u : State, s.Inv → u.nextAction = .restore s.snapshot →
    step u = .next { u with i := s.i, pc := s.pc, opcode := s.opcode, dt := s.dt, st := s.st, v := s.v, mem := s.mem, stack := s.stack,
                            fb := s.fb, pending := u.pending.tail, report := .done }

/-! ## Invariants -/

/-- Every move keeps memory in canonical form and the stack at 16 entries or fewer (20_memory section 1, 10_state section 5). -/
def Obligations.EveryStepKeepsTheInvariant : Prop :=
  ∀ s t : State, s.Inv → step s = .next t → t.Inv

/-- Every move keeps the PC at 0x10FE or below and every return address even and at most 0xFFE, the snapshots the host has still to restore included
(10_state section 4, derived there; 40_flow section 3). -/
def Obligations.EveryStepKeepsAddressesReachable : Prop :=
  ∀ s t : State, s.PcInv → step s = .next t → t.PcInv

/-- The state right after reset meets both invariants (10_state section 10; D2). -/
def Obligations.ResetMeetsTheInvariants : Prop := State.reset.Inv ∧ State.reset.PcInv

/-! ## Rules about the whole machine -/

/-- Every instruction that completes changes, of the state apart from the PC and the report, only what the table of 10_state section 2 says it writes. -/
def Obligations.EveryInstructionKeepsItsFrame : Prop :=
  ∀ (i : Instr) (s t : State), exec i s = .next t → KeptExcept i.changes s t

/-- The PC rule: a kind that is no jump, call, return or skip completes with PC + 2, but for the FX0A with no key down, which leaves PC as it is; a skip
completes with PC + 4 exactly when its condition holds, else with PC + 2; a jump, call or return overwrites the PC with its own target (10_state section 4,
40_flow sections 1 and 3, 41_skips, 45_timers_keys section 2; SYS is D8, the base of JP V0 D12, the low nibble of the key skips D16, the pushed address D26;
G6, G7, G8, G9, G10; logs 16 and 17). -/
def Obligations.ProgramCounterMovesByRule : Prop :=
  ∀ (i : Instr) (s t : State), exec i s = .next t →
    (i.endsWithNext = true → (∀ x, i = .ldVxK x → s.keys ≠ 0) → t.pc = s.pc + 2 ∧ t.report = .ok) ∧
    (∀ x, i = .ldVxK x → s.keys = 0 → t.pc = s.pc ∧ t.report = .waitKey) ∧
    (i.isSkip = true → t.pc = s.pc + (if i.skipTaken s = true then 4 else 2) ∧ t.report = .ok) ∧
    (∀ nnn, i = .jp nnn ∨ i = .call nnn → t.pc.toNat = nnn.toNat ∧ t.report = .ok) ∧
    (∀ nnn, i = .jpV0 nnn → t.pc.toNat = nnn.toNat + (s.getV 0x0).toNat ∧ t.report = .ok) ∧
    (∀ z, i = .ret z → ∃ a, s.stack.head? = some a ∧ t.pc = a + 2 ∧ t.report = .ok)

/-- The stack rule: from at most 16 entries, only CALL pushes (its own address, when fewer than 16 are held, else STACK_OVERFLOW) and only RET pops (the
most recent entry, when there is one, else STACK_UNDERFLOW), and the depth stays at 16 or below (10_state R26). -/
def Obligations.OnlyCallPushesAndOnlyRetPops : Prop :=
  ∀ (i : Instr) (s : State), s.stack.length ≤ 16 →
    (∀ t, exec i s = .next t → t.stack.length ≤ 16 ∧
      ((t.stack = s.stack ∧ (∀ nnn, i ≠ .call nnn) ∧ ∀ z, i ≠ .ret z) ∨
        (∃ nnn, i = .call nnn ∧ s.stack.length < 16 ∧ t.stack = s.pc :: s.stack) ∨
        (∃ z a, i = .ret z ∧ s.stack = a :: t.stack))) ∧
    (∀ nnn, i = .call nnn → s.stack.length = 16 → exec i s = .fault (.stackOverflow s.pc)) ∧
    (∀ z, i = .ret z → s.stack = [] → exec i s = .fault (.stackUnderflow s.pc))

/-- Only CLS and DRW reach the frame buffer, only SKP, SKNP and FX0A the keypad: every other instruction answers alike whatever the device holds and leaves it
as it is; no instruction changes the key state (20_memory R63). -/
def Obligations.OnlyTheirInstructionsReachTheDevices : Prop :=
  ∀ (i : Instr) (s : State),
    (∀ f, i.reachesScreen = false → exec i { s with fb := f } = mapNext (fun t => { t with fb := f }) (exec i s)) ∧
    (∀ k, i.readsKeys = false → exec i { s with keys := k } = mapNext (fun t => { t with keys := k }) (exec i s)) ∧
    (∀ t, exec i s = .next t → t.keys = s.keys)

/-- No instruction reads the opcode latch or the sound timer: another value of either changes nothing else (10_state sections 6 and 7; D6, G19). -/
def Obligations.NoInstructionReadsLatchOrSoundTimer : Prop :=
  ∀ (i : Instr) (s : State),
    (∀ w, exec i { s with opcode := w } = mapNext (fun t => { t with opcode := w }) (exec i s)) ∧
    (∀ b, (∀ x, i ≠ .ldStVx x) → exec i { s with st := b } = mapNext (fun t => { t with st := b }) (exec i s)) ∧
    (∀ b x, i = .ldStVx x → exec i { s with st := b } = exec i s)

/-- No transaction changes the arguments of the model: the switch (00_scope section 4, 10_state section 9, 70_reset section 1; D15) and the FONT
(00_scope section 4, 20_memory section 5; D20). That both are fields of State is the model's choice (logs 3 and 4). -/
def Obligations.NoTransactionChangesTheArguments : Prop :=
  ∀ s t : State, step s = .next t → t.params = s.params

/-- A run that is finished at `h` stays so: a further step only rewrites the latch with the word of the jump (70_reset section 6; D35, G7). -/
def Obligations.HaltLoopIsAFixedPoint : Prop :=
  ∀ (s : State) (h : Addr), s.finishedAt h → s.nextAction = .step →
    ∃ t, step s = .next t ∧ t = { s with opcode := 0x1000#16 ||| addrWord h, pending := s.pending.tail, report := .ok } ∧ t.finishedAt h

/-! ## Assembler syntax -/

/-- Every instruction is what its own line assembles to, with z = 0 for CLS and RET, whose line has no operand; and a line that assembles to an instruction is
that instruction's line, or SHR or SHL with its Vy left out: there are no other forms and no pseudo-instructions (30_encoding section 5; D32, G5; the
Y field of a line without Vy, the z of a CLS or RET line and the SYS lines without an instruction are the model's choice, log 18). -/
def Obligations.AssemblyLinesAreTheInstructions : Prop :=
  (∀ i : Instr, i.wf = true → (∀ z, i = .cls z ∨ i = .ret z → z = 0x0) → assemble (disassemble i) = some i) ∧
  ∀ (line : AsmLine) (i : Instr), assemble line = some i → i.wf = true ∧
    (line = disassemble i ∨
      ∃ x, (i = .shrVx x 0x0 ∧ line = ⟨.shr, [.reg x]⟩) ∨ (i = .shlVx x 0x0 ∧ line = ⟨.shl, [.reg x]⟩))

/-- In SHR and SHL the Vy of the line only fills the Y field of the word: every other bit of the word is that of the line without Vy, the decoder reads the
instruction back, and both have the same effect on every state (30_encoding section 5, 42_alu section 2; D11, D32, G5; log 18). -/
def Obligations.ShiftVyOnlyFillsTheYField : Prop :=
  ∀ (m : Mnemonic) (x y : Reg), m = .shr ∨ m = .shl → ∃ short long : Instr,
    assemble ⟨m, [.reg x]⟩ = some short ∧ assemble ⟨m, [.reg x, .reg y]⟩ = some long ∧
    (encode long).toNat / 16 % 16 = y.toNat ∧ (∀ k, k < 16 → k < 4 ∨ 8 ≤ k → (encode long).getLsbD k = (encode short).getLsbD k) ∧
    decode (encode long) = .instr long ∧ ∀ s : State, exec long s = exec short s ∧ ∃ t, exec long s = .next t
end

