-- ==== Sys2Proof/Laws/Decode.lean ====
section
/-! SUPPORT. The masks, fields and formats of an instruction word as arithmetic on its number, so that facts about decode and encode become linear
(30_encoding R71, R72, R74). -/

namespace Sys2Proof

/-- Concatenation as a number. -/
theorem toNat_append_add {m n : Nat} (a : BitVec m) (b : BitVec n) : (a ++ b).toNat = a.toNat * 2 ^ n + b.toNat := by
  rw [BitVec.toNat_append, ← Nat.shiftLeft_add_eq_or_of_lt b.isLt, Nat.shiftLeft_eq]

/-! ## The three masks -/

theorem mask1_toNat (w : Word) : (w &&& 0xF0FF#16).toNat = w.toNat / 4096 * 4096 + w.toNat % 256 := by
  have h : w &&& 0xF0FF#16 = w.extractLsb' 12 4 ++ 0#4 ++ w.extractLsb' 0 8 := by
    apply BitVec.eq_of_getLsbD_eq
    intro i hi
    simp only [BitVec.getLsbD_append, BitVec.getLsbD_extractLsb', BitVec.getLsbD_and]
    interval_cases i <;> simp
  rw [h, toNat_append_add, toNat_append_add]
  simp [BitVec.extractLsb'_toNat, Nat.shiftRight_eq_div_pow]
  omega

theorem mask2_toNat (w : Word) : (w &&& 0xF00F#16).toNat = w.toNat / 4096 * 4096 + w.toNat % 16 := by
  have h : w &&& 0xF00F#16 = w.extractLsb' 12 4 ++ 0#8 ++ w.extractLsb' 0 4 := by
    apply BitVec.eq_of_getLsbD_eq
    intro i hi
    simp only [BitVec.getLsbD_append, BitVec.getLsbD_extractLsb', BitVec.getLsbD_and]
    interval_cases i <;> simp
  rw [h, toNat_append_add, toNat_append_add]
  simp [BitVec.extractLsb'_toNat, Nat.shiftRight_eq_div_pow]
  omega

theorem mask3_toNat (w : Word) : (w &&& 0xF000#16).toNat = w.toNat / 4096 * 4096 := by
  have h : w &&& 0xF000#16 = w.extractLsb' 12 4 ++ 0#12 := by
    apply BitVec.eq_of_getLsbD_eq
    intro i hi
    simp only [BitVec.getLsbD_append, BitVec.getLsbD_extractLsb', BitVec.getLsbD_and]
    interval_cases i <;> simp
  rw [h, toNat_append_add]
  simp [BitVec.extractLsb'_toNat, Nat.shiftRight_eq_div_pow]
  omega

/-! ## Fields and formats -/

theorem fieldX_toNat (w : Word) : (fieldX w).toNat = w.toNat / 256 % 16 := by
  simp [fieldX, BitVec.extractLsb'_toNat, Nat.shiftRight_eq_div_pow]

theorem fieldY_toNat (w : Word) : (fieldY w).toNat = w.toNat / 16 % 16 := by
  simp [fieldY, BitVec.extractLsb'_toNat, Nat.shiftRight_eq_div_pow]

theorem fieldN_toNat (w : Word) : (fieldN w).toNat = w.toNat % 16 := by
  simp [fieldN, BitVec.extractLsb'_toNat]

theorem fieldNN_toNat (w : Word) : (fieldNN w).toNat = w.toNat % 256 := by
  simp [fieldNN, BitVec.extractLsb'_toNat]

theorem fieldNNN_toNat (w : Word) : (fieldNNN w).toNat = w.toNat % 4096 := by
  simp [fieldNNN, BitVec.extractLsb'_toNat]

theorem formatA_toNat (c : Nibble) (nnn : Addr) : (formatA c nnn).toNat = c.toNat * 4096 + nnn.toNat :=
  toNat_append_add c nnn

theorem formatXK_toNat (c x : Nibble) (k : Byte) : (formatXK c x k).toNat = c.toNat * 4096 + x.toNat * 256 + k.toNat := by
  have h : (formatXK c x k).toNat = (c ++ x).toNat * 2 ^ 8 + k.toNat := toNat_append_add (c ++ x) k
  rw [h, toNat_append_add]
  omega

theorem formatXYN_toNat (c x y n : Nibble) :
    (formatXYN c x y n).toNat = c.toNat * 4096 + x.toNat * 256 + y.toNat * 16 + n.toNat := by
  have h : (formatXYN c x y n).toNat = (c ++ x ++ y).toNat * 2 ^ 4 + n.toNat := toNat_append_add (c ++ x ++ y) n
  rw [h, toNat_append_add, toNat_append_add]
  omega

/-- The bytes of a word, put together again, are the word. -/
theorem wordOfBytes_bytes (w : Word) : wordOfBytes (highByte w) (lowByte w) = w := by
  apply BitVec.eq_of_toNat_eq
  rw [wordOfBytes, toNat_append_add]
  simp [highByte, lowByte, BitVec.extractLsb'_toNat, Nat.shiftRight_eq_div_pow]
  omega

theorem wordOfBytes_toNat (hi lo : Byte) : (wordOfBytes hi lo).toNat = 256 * hi.toNat + lo.toNat := by
  rw [wordOfBytes, toNat_append_add]; omega

/-! ## What each tier answers -/

/-- A word in family 0, E or F and nothing else can match tier 1 (30_encoding R75). -/
theorem tier1_family {w : Word} {i : Instr} (h : tier1 w = some i) :
    w.toNat / 4096 = 0 ∨ w.toNat / 4096 = 0xE ∨ w.toNat / 4096 = 0xF := by
  have hm := mask1_toNat w
  unfold tier1 at h
  split at h
  case h_14 => cases h
  all_goals (rename_i hk; rw [hk] at hm; simp at hm; omega)

/-- A word in family 5, 8 or 9 and nothing else can match tier 2 (30_encoding R75). -/
theorem tier2_family {w : Word} {i : Instr} (h : tier2 w = some i) :
    w.toNat / 4096 = 5 ∨ w.toNat / 4096 = 8 ∨ w.toNat / 4096 = 9 := by
  have hm := mask2_toNat w
  unfold tier2 at h
  split at h
  case h_12 => cases h
  all_goals (rename_i hk; rw [hk] at hm; simp at hm; omega)

/-- A word outside the families of tier 1 matches nothing there. -/
theorem tier1_none {w : Word} (h : w.toNat / 4096 ≠ 0 ∧ w.toNat / 4096 ≠ 0xE ∧ w.toNat / 4096 ≠ 0xF) : tier1 w = none := by
  by_contra hn
  obtain ⟨i, hi⟩ := Option.ne_none_iff_exists'.mp hn
  have := tier1_family hi
  omega

/-- A word outside the families of tier 2 matches nothing there. -/
theorem tier2_none {w : Word} (h : w.toNat / 4096 ≠ 5 ∧ w.toNat / 4096 ≠ 8 ∧ w.toNat / 4096 ≠ 9) : tier2 w = none := by
  by_contra hn
  obtain ⟨i, hi⟩ := Option.ne_none_iff_exists'.mp hn
  have := tier2_family hi
  omega

/-- The tier 1 key of a word, from its family and its low byte. -/
theorem mask1_eq {w : Word} (k : Nat) (hk : k < 65536) (h : w.toNat / 4096 * 4096 + w.toNat % 256 = k) :
    w &&& 0xF0FF#16 = BitVec.ofNat 16 k := by
  apply BitVec.eq_of_toNat_eq
  rw [mask1_toNat, h, BitVec.toNat_ofNat, Nat.mod_eq_of_lt (by omega)]

/-- The tier 2 key of a word, from its family and its low nibble. -/
theorem mask2_eq {w : Word} (k : Nat) (hk : k < 65536) (h : w.toNat / 4096 * 4096 + w.toNat % 16 = k) :
    w &&& 0xF00F#16 = BitVec.ofNat 16 k := by
  apply BitVec.eq_of_toNat_eq
  rw [mask2_toNat, h, BitVec.toNat_ofNat, Nat.mod_eq_of_lt (by omega)]

/-- The tier 3 key of a word, from its family. -/
theorem mask3_eq {w : Word} (k : Nat) (hk : k < 65536) (h : w.toNat / 4096 * 4096 = k) :
    w &&& 0xF000#16 = BitVec.ofNat 16 k := by
  apply BitVec.eq_of_toNat_eq
  rw [mask3_toNat, h, BitVec.toNat_ofNat, Nat.mod_eq_of_lt (by omega)]

/-- Decode as the three tiers in order: the first match wins (30_encoding R74). -/
theorem decode_instr {w : Word} {i : Instr} :
    decode w = .instr i ↔ tier1 w = some i ∨ (tier1 w = none ∧ tier2 w = some i) ∨
      (tier1 w = none ∧ tier2 w = none ∧ tier3 w = some i) := by
  unfold decode
  cases tier1 w <;> cases tier2 w <;> cases tier3 w <;> simp

/-- A word is UNKNOWN iff no tier matches it, and the rejection names that word (30_encoding R74, R78). -/
theorem decode_unknown {w u : Word} :
    decode w = .unknown u ↔ u = w ∧ tier1 w = none ∧ tier2 w = none ∧ tier3 w = none := by
  unfold decode
  cases tier1 w <;> cases tier2 w <;> cases tier3 w <;> simp [eq_comm]

end Sys2Proof
end

