-- ==== Sys2Proof/Laws/Memory.lean ====
section
/-! SUPPORT. The laws of memory: a read after a write, and the canonical form kept by every memory operation (20_memory R50, R58). -/

namespace Sys2Proof.Machine

theorem Memory.list_read (a : Nat) (b : Byte) (rest : Memory) (x : Nat) (h : ∀ c ∈ rest, a < c.1) :
    Memory.read (Memory.list a b rest) x = if x = a then b else Memory.read rest x := by
  have skip : ∀ m : Memory, (∀ c ∈ m, a < c.1) → Memory.read m a = Memory.unlisted a := by
    intro m
    induction m with
    | nil => intro _; rfl
    | cons c m ih =>
      intro hm
      have := hm c (by simp)
      simp only [Memory.read]
      rw [if_neg (by omega), ih fun d hd => hm d (by simp [hd])]
  unfold Memory.list
  by_cases hx : x = a
  · subst hx
    by_cases hb : b = Memory.unlisted x
    · simp [hb, skip rest h]
    · simp [hb, Memory.read]
  · by_cases hb : b = Memory.unlisted a
    · simp [hb, hx]
    · simp [hb, hx, Memory.read, Ne.symm hx]

/-- A byte after a write: the written address has the new byte, every other its old one. -/
theorem Memory.read_write {m : Memory} (hm : m.Pairwise fun c d => c.1 < d.1) (a x : Nat) (b : Byte) :
    Memory.read (Memory.write m a b) x = if x = a then b else Memory.read m x := by
  induction m with
  | nil => exact Memory.list_read a b [] x (by simp)
  | cons c m ih =>
    obtain ⟨hc, hm'⟩ := List.pairwise_cons.mp hm
    have above : a < c.1 → ∀ d ∈ c :: m, a < d.1 := by
      intro h d hd
      rcases List.mem_cons.mp hd with rfl | hd
      · exact h
      · exact h.trans (hc d hd)
    simp only [Memory.write]
    rcases Nat.lt_trichotomy a c.1 with h | h | h
    · rw [if_pos h]
      exact Memory.list_read a b (c :: m) x (above h)
    · rw [if_neg (by omega), if_pos h, Memory.list_read a b m x (by intro d hd; have := hc d hd; omega)]
      by_cases hx : x = a
      · simp [hx]
      · simp [hx, Memory.read, show ¬ c.1 = x by omega]
    · rw [if_neg (by omega), if_neg (by omega)]
      by_cases hx : c.1 = x
      · simp [Memory.read, hx, show ¬ x = a by omega]
      · simp [Memory.read, hx, ih hm']

theorem Memory.list_wf {a : Nat} {b : Byte} {rest : Memory} (ha : a < Config.memSize) (h : ∀ c ∈ rest, a < c.1)
    (hr : Memory.wf rest) : Memory.wf (Memory.list a b rest) := by
  unfold Memory.list
  split_ifs with hb
  · exact hr
  · refine ⟨List.pairwise_cons.mpr ⟨h, hr.1⟩, ?_⟩
    intro c hc
    rcases List.mem_cons.mp hc with rfl | hc
    · exact ⟨ha, hb⟩
    · exact hr.2 c hc

theorem Memory.mem_list {a : Nat} {b : Byte} {rest : Memory} {c : Host.Cell} (h : c ∈ Memory.list a b rest) :
    c.1 = a ∨ c ∈ rest := by
  unfold Memory.list at h
  split_ifs at h
  · exact .inr h
  · rcases List.mem_cons.mp h with rfl | h
    · exact .inl rfl
    · exact .inr h

theorem Memory.mem_write {m : Memory} {a : Nat} {b : Byte} {c : Host.Cell} (h : c ∈ Memory.write m a b) : c.1 = a ∨ c ∈ m := by
  induction m with
  | nil => exact Memory.mem_list h
  | cons d m ih =>
    simp only [Memory.write] at h
    split_ifs at h
    · exact Memory.mem_list h
    · rcases Memory.mem_list h with h | h
      · exact .inl h
      · exact .inr (List.mem_cons_of_mem _ h)
    · rcases List.mem_cons.mp h with rfl | h
      · simp
      · rcases ih h with h | h
        · exact .inl h
        · exact .inr (List.mem_cons_of_mem _ h)

/-- A write inside the address space keeps the canonical form. -/
theorem Memory.write_wf {m : Memory} {a : Nat} {b : Byte} (ha : a < Config.memSize) (hm : Memory.wf m) :
    Memory.wf (Memory.write m a b) := by
  induction m with
  | nil => exact Memory.list_wf ha (by simp) hm
  | cons c m ih =>
    obtain ⟨hp, hc⟩ := hm
    obtain ⟨hlt, hp'⟩ := List.pairwise_cons.mp hp
    have hm' : Memory.wf m := ⟨hp', fun d hd => hc d (List.mem_cons_of_mem _ hd)⟩
    simp only [Memory.write]
    split_ifs with h1 h2
    · refine Memory.list_wf ha ?_ ⟨hp, hc⟩
      intro d hd
      rcases List.mem_cons.mp hd with rfl | hd
      · exact h1
      · exact h1.trans (hlt d hd)
    · exact Memory.list_wf ha (by intro d hd; have := hlt d hd; omega) hm'
    · obtain ⟨hw, hv⟩ := ih hm'
      refine ⟨List.pairwise_cons.mpr ⟨?_, hw⟩, ?_⟩
      · intro d hd
        rcases Memory.mem_write hd with h | h
        · show c.1 < d.1; omega
        · exact hlt d h
      · intro d hd
        rcases List.mem_cons.mp hd with rfl | hd
        · exact hc _ (by simp)
        · exact hv d hd

theorem Memory.writeBytes_wf {m : Memory} {a : Nat} {bs : List Byte} (ha : bs = [] ∨ a + bs.length ≤ Config.memSize)
    (hm : Memory.wf m) : Memory.wf (Memory.writeBytes m a bs) := by
  induction bs generalizing m a with
  | nil => exact hm
  | cons b bs ih =>
    simp only [List.length_cons, reduceCtorEq, false_or] at ha
    exact ih (.inr (by omega)) (Memory.write_wf (by omega) hm)

theorem Memory.write_pairwise {m : Memory} {a : Nat} {b : Byte} (hm : m.Pairwise fun c d => c.1 < d.1) :
    (Memory.write m a b).Pairwise fun c d => c.1 < d.1 := by
  have list : ∀ rest : Memory, (∀ c ∈ rest, a < c.1) → rest.Pairwise (fun c d => c.1 < d.1) →
      (Memory.list a b rest).Pairwise fun c d => c.1 < d.1 := by
    intro rest h hr
    unfold Memory.list
    split_ifs
    · exact hr
    · exact List.pairwise_cons.mpr ⟨h, hr⟩
  induction m with
  | nil => exact list [] (by simp) hm
  | cons c m ih =>
    obtain ⟨hlt, hp⟩ := List.pairwise_cons.mp hm
    simp only [Memory.write]
    split_ifs with h1 h2
    · refine list _ ?_ hm
      intro d hd
      rcases List.mem_cons.mp hd with rfl | hd
      · exact h1
      · exact h1.trans (hlt d hd)
    · exact list m (by intro d hd; have := hlt d hd; omega) hp
    · refine List.pairwise_cons.mpr ⟨?_, ih hp⟩
      intro d hd
      rcases Memory.mem_write hd with h | h
      · show c.1 < d.1; omega
      · exact hlt d h

/-- The bytes after a row of writes: inside the row the written byte, elsewhere the old one. -/
theorem Memory.read_writeBytes {m : Memory} (hm : m.Pairwise fun c d => c.1 < d.1) (a x : Nat) (bs : List Byte) :
    Memory.read (Memory.writeBytes m a bs) x = if a ≤ x then (bs[x - a]?).getD (Memory.read m x) else Memory.read m x := by
  induction bs generalizing m a with
  | nil => simp [Memory.writeBytes]
  | cons b bs ih =>
    rw [Memory.writeBytes, ih (Memory.write_pairwise hm), Memory.read_write hm]
    rcases Nat.lt_trichotomy x a with h | h | h
    · simp [show ¬ a + 1 ≤ x by omega, show ¬ a ≤ x by omega, show ¬ x = a by omega]
    · subst h; simp
    · obtain ⟨k, rfl⟩ : ∃ k, x = a + 1 + k := ⟨x - a - 1, by omega⟩
      simp [show a ≤ a + 1 + k by omega, show a + 1 + k - a = k + 1 by omega, show ¬ a + 1 + k = a by omega]

/-- Two memories in canonical form that read alike are equal. -/
theorem Memory.ext_read {m n : Memory} (hm : Memory.wf m) (hn : Memory.wf n) (h : ∀ a, Memory.read m a = Memory.read n a) :
    m = n := by
  have below : ∀ (k : Memory) (a : Nat), (∀ c ∈ k, a < c.1) → Memory.read k a = Memory.unlisted a := by
    intro k a
    induction k with
    | nil => intro _; rfl
    | cons c k ih =>
      intro hk
      have := hk c (by simp)
      simp only [Memory.read]
      rw [if_neg (by omega), ih fun d hd => hk d (by simp [hd])]
  have tail : ∀ {c : Host.Cell} {k : Memory}, Memory.wf (c :: k) → Memory.wf k := fun hk =>
    ⟨(List.pairwise_cons.mp hk.1).2, fun d hd => hk.2 d (List.mem_cons_of_mem _ hd)⟩
  have first : ∀ {c : Host.Cell} {k : Memory} {n : Memory}, Memory.wf (c :: k) → (∀ d ∈ n, c.1 < d.1) →
      Memory.read (c :: k) c.1 ≠ Memory.read n c.1 := by
    intro c k n hk hlt
    rw [below n c.1 hlt]
    simpa [Memory.read] using (hk.2 c (by simp)).2
  induction m generalizing n with
  | nil =>
    cases n with
    | nil => rfl
    | cons d n => exact absurd (h d.1).symm (first hn (by simp))
  | cons c m ih =>
    cases n with
    | nil => exact absurd (h c.1) (first hm (by simp))
    | cons d n =>
      have hlt := (List.pairwise_cons.mp hm.1).1
      have hlt' := (List.pairwise_cons.mp hn.1).1
      rcases Nat.lt_trichotomy c.1 d.1 with hcd | hcd | hcd
      · refine absurd (h c.1) (first hm ?_)
        intro e he
        rcases List.mem_cons.mp he with rfl | he
        · exact hcd
        · exact hcd.trans (hlt' e he)
      · have hb : c.2 = d.2 := by simpa [Memory.read, hcd] using h c.1
        have hcd' : c = d := Prod.ext hcd hb
        subst hcd'
        congr 1
        refine ih (tail hm) (tail hn) ?_
        intro a
        by_cases ha : c.1 = a
        · subst ha; rw [below m _ hlt, below n _ hlt']
        · simpa [Memory.read, ha] using h a
      · refine absurd (h d.1).symm (first hn ?_)
        intro e he
        rcases List.mem_cons.mp he with rfl | he
        · exact hcd
        · exact hcd.trans (hlt e he)

end Sys2Proof.Machine
end

