-- ==== Sys2Proof/Laws/State.lean ====
section
/-! SUPPORT. One lemma per field per update of State, each true by unfolding, and the reads of registers, keys and draws after an update. -/

namespace Sys2Proof.Machine

/-! ## setV -/

@[simp] theorem State.setV_mem (s : State) (x : Reg) (b : Byte) : (s.setV x b).mem = s.mem := rfl
@[simp] theorem State.setV_v (s : State) (x : Reg) (b : Byte) : (s.setV x b).v = s.v.set x.toNat b x.isLt := rfl
@[simp] theorem State.setV_i (s : State) (x : Reg) (b : Byte) : (s.setV x b).i = s.i := rfl
@[simp] theorem State.setV_pc (s : State) (x : Reg) (b : Byte) : (s.setV x b).pc = s.pc := rfl
@[simp] theorem State.setV_stack (s : State) (x : Reg) (b : Byte) : (s.setV x b).stack = s.stack := rfl
@[simp] theorem State.setV_dt (s : State) (x : Reg) (b : Byte) : (s.setV x b).dt = s.dt := rfl
@[simp] theorem State.setV_st (s : State) (x : Reg) (b : Byte) : (s.setV x b).st = s.st := rfl
@[simp] theorem State.setV_opcode (s : State) (x : Reg) (b : Byte) : (s.setV x b).opcode = s.opcode := rfl
@[simp] theorem State.setV_fb (s : State) (x : Reg) (b : Byte) : (s.setV x b).fb = s.fb := rfl
@[simp] theorem State.setV_keys (s : State) (x : Reg) (b : Byte) : (s.setV x b).keys = s.keys := rfl
@[simp] theorem State.setV_rngQueue (s : State) (x : Reg) (b : Byte) : (s.setV x b).rngQueue = s.rngQueue := rfl
@[simp] theorem State.setV_rngDraws (s : State) (x : Reg) (b : Byte) : (s.setV x b).rngDraws = s.rngDraws := rfl
@[simp] theorem State.setV_params (s : State) (x : Reg) (b : Byte) : (s.setV x b).params = s.params := rfl
@[simp] theorem State.setV_pending (s : State) (x : Reg) (b : Byte) : (s.setV x b).pending = s.pending := rfl
@[simp] theorem State.setV_report (s : State) (x : Reg) (b : Byte) : (s.setV x b).report = s.report := rfl
@[simp] theorem State.setV_isDown (s : State) (x : Reg) (b : Byte) : (s.setV x b).isDown = s.isDown := rfl
@[simp] theorem State.setV_draw (s : State) (x : Reg) (b : Byte) : (s.setV x b).draw = s.draw := rfl

/-! ## setI -/

@[simp] theorem State.setI_mem (s : State) (w : Word) : (s.setI w).mem = s.mem := rfl
@[simp] theorem State.setI_v (s : State) (w : Word) : (s.setI w).v = s.v := rfl
@[simp] theorem State.setI_i (s : State) (w : Word) : (s.setI w).i = w := rfl
@[simp] theorem State.setI_pc (s : State) (w : Word) : (s.setI w).pc = s.pc := rfl
@[simp] theorem State.setI_stack (s : State) (w : Word) : (s.setI w).stack = s.stack := rfl
@[simp] theorem State.setI_dt (s : State) (w : Word) : (s.setI w).dt = s.dt := rfl
@[simp] theorem State.setI_st (s : State) (w : Word) : (s.setI w).st = s.st := rfl
@[simp] theorem State.setI_opcode (s : State) (w : Word) : (s.setI w).opcode = s.opcode := rfl
@[simp] theorem State.setI_fb (s : State) (w : Word) : (s.setI w).fb = s.fb := rfl
@[simp] theorem State.setI_keys (s : State) (w : Word) : (s.setI w).keys = s.keys := rfl
@[simp] theorem State.setI_rngQueue (s : State) (w : Word) : (s.setI w).rngQueue = s.rngQueue := rfl
@[simp] theorem State.setI_rngDraws (s : State) (w : Word) : (s.setI w).rngDraws = s.rngDraws := rfl
@[simp] theorem State.setI_params (s : State) (w : Word) : (s.setI w).params = s.params := rfl
@[simp] theorem State.setI_pending (s : State) (w : Word) : (s.setI w).pending = s.pending := rfl
@[simp] theorem State.setI_report (s : State) (w : Word) : (s.setI w).report = s.report := rfl
@[simp] theorem State.setI_getV (s : State) (w : Word) (y : Reg) : (s.setI w).getV y = s.getV y := rfl
@[simp] theorem State.setI_isDown (s : State) (w : Word) : (s.setI w).isDown = s.isDown := rfl
@[simp] theorem State.setI_draw (s : State) (w : Word) : (s.setI w).draw = s.draw := rfl

/-! ## setMem -/

@[simp] theorem State.setMem_mem (s : State) (m : Memory) : (s.setMem m).mem = m := rfl
@[simp] theorem State.setMem_v (s : State) (m : Memory) : (s.setMem m).v = s.v := rfl
@[simp] theorem State.setMem_i (s : State) (m : Memory) : (s.setMem m).i = s.i := rfl
@[simp] theorem State.setMem_pc (s : State) (m : Memory) : (s.setMem m).pc = s.pc := rfl
@[simp] theorem State.setMem_stack (s : State) (m : Memory) : (s.setMem m).stack = s.stack := rfl
@[simp] theorem State.setMem_dt (s : State) (m : Memory) : (s.setMem m).dt = s.dt := rfl
@[simp] theorem State.setMem_st (s : State) (m : Memory) : (s.setMem m).st = s.st := rfl
@[simp] theorem State.setMem_opcode (s : State) (m : Memory) : (s.setMem m).opcode = s.opcode := rfl
@[simp] theorem State.setMem_fb (s : State) (m : Memory) : (s.setMem m).fb = s.fb := rfl
@[simp] theorem State.setMem_keys (s : State) (m : Memory) : (s.setMem m).keys = s.keys := rfl
@[simp] theorem State.setMem_rngQueue (s : State) (m : Memory) : (s.setMem m).rngQueue = s.rngQueue := rfl
@[simp] theorem State.setMem_rngDraws (s : State) (m : Memory) : (s.setMem m).rngDraws = s.rngDraws := rfl
@[simp] theorem State.setMem_params (s : State) (m : Memory) : (s.setMem m).params = s.params := rfl
@[simp] theorem State.setMem_pending (s : State) (m : Memory) : (s.setMem m).pending = s.pending := rfl
@[simp] theorem State.setMem_report (s : State) (m : Memory) : (s.setMem m).report = s.report := rfl
@[simp] theorem State.setMem_getV (s : State) (m : Memory) (y : Reg) : (s.setMem m).getV y = s.getV y := rfl
@[simp] theorem State.setMem_isDown (s : State) (m : Memory) : (s.setMem m).isDown = s.isDown := rfl
@[simp] theorem State.setMem_draw (s : State) (m : Memory) : (s.setMem m).draw = s.draw := rfl

/-! ## setDt -/

@[simp] theorem State.setDt_mem (s : State) (b : Byte) : (s.setDt b).mem = s.mem := rfl
@[simp] theorem State.setDt_v (s : State) (b : Byte) : (s.setDt b).v = s.v := rfl
@[simp] theorem State.setDt_i (s : State) (b : Byte) : (s.setDt b).i = s.i := rfl
@[simp] theorem State.setDt_pc (s : State) (b : Byte) : (s.setDt b).pc = s.pc := rfl
@[simp] theorem State.setDt_stack (s : State) (b : Byte) : (s.setDt b).stack = s.stack := rfl
@[simp] theorem State.setDt_dt (s : State) (b : Byte) : (s.setDt b).dt = b := rfl
@[simp] theorem State.setDt_st (s : State) (b : Byte) : (s.setDt b).st = s.st := rfl
@[simp] theorem State.setDt_opcode (s : State) (b : Byte) : (s.setDt b).opcode = s.opcode := rfl
@[simp] theorem State.setDt_fb (s : State) (b : Byte) : (s.setDt b).fb = s.fb := rfl
@[simp] theorem State.setDt_keys (s : State) (b : Byte) : (s.setDt b).keys = s.keys := rfl
@[simp] theorem State.setDt_rngQueue (s : State) (b : Byte) : (s.setDt b).rngQueue = s.rngQueue := rfl
@[simp] theorem State.setDt_rngDraws (s : State) (b : Byte) : (s.setDt b).rngDraws = s.rngDraws := rfl
@[simp] theorem State.setDt_params (s : State) (b : Byte) : (s.setDt b).params = s.params := rfl
@[simp] theorem State.setDt_pending (s : State) (b : Byte) : (s.setDt b).pending = s.pending := rfl
@[simp] theorem State.setDt_report (s : State) (b : Byte) : (s.setDt b).report = s.report := rfl
@[simp] theorem State.setDt_getV (s : State) (b : Byte) (y : Reg) : (s.setDt b).getV y = s.getV y := rfl
@[simp] theorem State.setDt_isDown (s : State) (b : Byte) : (s.setDt b).isDown = s.isDown := rfl
@[simp] theorem State.setDt_draw (s : State) (b : Byte) : (s.setDt b).draw = s.draw := rfl

/-! ## setSt -/

@[simp] theorem State.setSt_mem (s : State) (b : Byte) : (s.setSt b).mem = s.mem := rfl
@[simp] theorem State.setSt_v (s : State) (b : Byte) : (s.setSt b).v = s.v := rfl
@[simp] theorem State.setSt_i (s : State) (b : Byte) : (s.setSt b).i = s.i := rfl
@[simp] theorem State.setSt_pc (s : State) (b : Byte) : (s.setSt b).pc = s.pc := rfl
@[simp] theorem State.setSt_stack (s : State) (b : Byte) : (s.setSt b).stack = s.stack := rfl
@[simp] theorem State.setSt_dt (s : State) (b : Byte) : (s.setSt b).dt = s.dt := rfl
@[simp] theorem State.setSt_st (s : State) (b : Byte) : (s.setSt b).st = b := rfl
@[simp] theorem State.setSt_opcode (s : State) (b : Byte) : (s.setSt b).opcode = s.opcode := rfl
@[simp] theorem State.setSt_fb (s : State) (b : Byte) : (s.setSt b).fb = s.fb := rfl
@[simp] theorem State.setSt_keys (s : State) (b : Byte) : (s.setSt b).keys = s.keys := rfl
@[simp] theorem State.setSt_rngQueue (s : State) (b : Byte) : (s.setSt b).rngQueue = s.rngQueue := rfl
@[simp] theorem State.setSt_rngDraws (s : State) (b : Byte) : (s.setSt b).rngDraws = s.rngDraws := rfl
@[simp] theorem State.setSt_params (s : State) (b : Byte) : (s.setSt b).params = s.params := rfl
@[simp] theorem State.setSt_pending (s : State) (b : Byte) : (s.setSt b).pending = s.pending := rfl
@[simp] theorem State.setSt_report (s : State) (b : Byte) : (s.setSt b).report = s.report := rfl
@[simp] theorem State.setSt_getV (s : State) (b : Byte) (y : Reg) : (s.setSt b).getV y = s.getV y := rfl
@[simp] theorem State.setSt_isDown (s : State) (b : Byte) : (s.setSt b).isDown = s.isDown := rfl
@[simp] theorem State.setSt_draw (s : State) (b : Byte) : (s.setSt b).draw = s.draw := rfl

/-! ## setStack -/

@[simp] theorem State.setStack_mem (s : State) (k : List Word) : (s.setStack k).mem = s.mem := rfl
@[simp] theorem State.setStack_v (s : State) (k : List Word) : (s.setStack k).v = s.v := rfl
@[simp] theorem State.setStack_i (s : State) (k : List Word) : (s.setStack k).i = s.i := rfl
@[simp] theorem State.setStack_pc (s : State) (k : List Word) : (s.setStack k).pc = s.pc := rfl
@[simp] theorem State.setStack_stack (s : State) (k : List Word) : (s.setStack k).stack = k := rfl
@[simp] theorem State.setStack_dt (s : State) (k : List Word) : (s.setStack k).dt = s.dt := rfl
@[simp] theorem State.setStack_st (s : State) (k : List Word) : (s.setStack k).st = s.st := rfl
@[simp] theorem State.setStack_opcode (s : State) (k : List Word) : (s.setStack k).opcode = s.opcode := rfl
@[simp] theorem State.setStack_fb (s : State) (k : List Word) : (s.setStack k).fb = s.fb := rfl
@[simp] theorem State.setStack_keys (s : State) (k : List Word) : (s.setStack k).keys = s.keys := rfl
@[simp] theorem State.setStack_rngQueue (s : State) (k : List Word) : (s.setStack k).rngQueue = s.rngQueue := rfl
@[simp] theorem State.setStack_rngDraws (s : State) (k : List Word) : (s.setStack k).rngDraws = s.rngDraws := rfl
@[simp] theorem State.setStack_params (s : State) (k : List Word) : (s.setStack k).params = s.params := rfl
@[simp] theorem State.setStack_pending (s : State) (k : List Word) : (s.setStack k).pending = s.pending := rfl
@[simp] theorem State.setStack_report (s : State) (k : List Word) : (s.setStack k).report = s.report := rfl
@[simp] theorem State.setStack_getV (s : State) (k : List Word) (y : Reg) : (s.setStack k).getV y = s.getV y := rfl
@[simp] theorem State.setStack_isDown (s : State) (k : List Word) : (s.setStack k).isDown = s.isDown := rfl
@[simp] theorem State.setStack_draw (s : State) (k : List Word) : (s.setStack k).draw = s.draw := rfl

/-! ## setFb -/

@[simp] theorem State.setFb_mem (s : State) (f : Frame) : (s.setFb f).mem = s.mem := rfl
@[simp] theorem State.setFb_v (s : State) (f : Frame) : (s.setFb f).v = s.v := rfl
@[simp] theorem State.setFb_i (s : State) (f : Frame) : (s.setFb f).i = s.i := rfl
@[simp] theorem State.setFb_pc (s : State) (f : Frame) : (s.setFb f).pc = s.pc := rfl
@[simp] theorem State.setFb_stack (s : State) (f : Frame) : (s.setFb f).stack = s.stack := rfl
@[simp] theorem State.setFb_dt (s : State) (f : Frame) : (s.setFb f).dt = s.dt := rfl
@[simp] theorem State.setFb_st (s : State) (f : Frame) : (s.setFb f).st = s.st := rfl
@[simp] theorem State.setFb_opcode (s : State) (f : Frame) : (s.setFb f).opcode = s.opcode := rfl
@[simp] theorem State.setFb_fb (s : State) (f : Frame) : (s.setFb f).fb = f := rfl
@[simp] theorem State.setFb_keys (s : State) (f : Frame) : (s.setFb f).keys = s.keys := rfl
@[simp] theorem State.setFb_rngQueue (s : State) (f : Frame) : (s.setFb f).rngQueue = s.rngQueue := rfl
@[simp] theorem State.setFb_rngDraws (s : State) (f : Frame) : (s.setFb f).rngDraws = s.rngDraws := rfl
@[simp] theorem State.setFb_params (s : State) (f : Frame) : (s.setFb f).params = s.params := rfl
@[simp] theorem State.setFb_pending (s : State) (f : Frame) : (s.setFb f).pending = s.pending := rfl
@[simp] theorem State.setFb_report (s : State) (f : Frame) : (s.setFb f).report = s.report := rfl
@[simp] theorem State.setFb_getV (s : State) (f : Frame) (y : Reg) : (s.setFb f).getV y = s.getV y := rfl
@[simp] theorem State.setFb_isDown (s : State) (f : Frame) : (s.setFb f).isDown = s.isDown := rfl
@[simp] theorem State.setFb_draw (s : State) (f : Frame) : (s.setFb f).draw = s.draw := rfl

/-! ## latch -/

@[simp] theorem State.latch_mem (s : State) (w : Word) : (s.latch w).mem = s.mem := rfl
@[simp] theorem State.latch_v (s : State) (w : Word) : (s.latch w).v = s.v := rfl
@[simp] theorem State.latch_i (s : State) (w : Word) : (s.latch w).i = s.i := rfl
@[simp] theorem State.latch_pc (s : State) (w : Word) : (s.latch w).pc = s.pc := rfl
@[simp] theorem State.latch_stack (s : State) (w : Word) : (s.latch w).stack = s.stack := rfl
@[simp] theorem State.latch_dt (s : State) (w : Word) : (s.latch w).dt = s.dt := rfl
@[simp] theorem State.latch_st (s : State) (w : Word) : (s.latch w).st = s.st := rfl
@[simp] theorem State.latch_opcode (s : State) (w : Word) : (s.latch w).opcode = w := rfl
@[simp] theorem State.latch_fb (s : State) (w : Word) : (s.latch w).fb = s.fb := rfl
@[simp] theorem State.latch_keys (s : State) (w : Word) : (s.latch w).keys = s.keys := rfl
@[simp] theorem State.latch_rngQueue (s : State) (w : Word) : (s.latch w).rngQueue = s.rngQueue := rfl
@[simp] theorem State.latch_rngDraws (s : State) (w : Word) : (s.latch w).rngDraws = s.rngDraws := rfl
@[simp] theorem State.latch_params (s : State) (w : Word) : (s.latch w).params = s.params := rfl
@[simp] theorem State.latch_pending (s : State) (w : Word) : (s.latch w).pending = s.pending := rfl
@[simp] theorem State.latch_report (s : State) (w : Word) : (s.latch w).report = s.report := rfl
@[simp] theorem State.latch_getV (s : State) (w : Word) (y : Reg) : (s.latch w).getV y = s.getV y := rfl
@[simp] theorem State.latch_isDown (s : State) (w : Word) : (s.latch w).isDown = s.isDown := rfl
@[simp] theorem State.latch_draw (s : State) (w : Word) : (s.latch w).draw = s.draw := rfl

/-! ## finish -/

@[simp] theorem State.finish_mem (s : State) (p : Word) (r : Report) : (s.finish p r).mem = s.mem := rfl
@[simp] theorem State.finish_v (s : State) (p : Word) (r : Report) : (s.finish p r).v = s.v := rfl
@[simp] theorem State.finish_i (s : State) (p : Word) (r : Report) : (s.finish p r).i = s.i := rfl
@[simp] theorem State.finish_pc (s : State) (p : Word) (r : Report) : (s.finish p r).pc = p := rfl
@[simp] theorem State.finish_stack (s : State) (p : Word) (r : Report) : (s.finish p r).stack = s.stack := rfl
@[simp] theorem State.finish_dt (s : State) (p : Word) (r : Report) : (s.finish p r).dt = s.dt := rfl
@[simp] theorem State.finish_st (s : State) (p : Word) (r : Report) : (s.finish p r).st = s.st := rfl
@[simp] theorem State.finish_opcode (s : State) (p : Word) (r : Report) : (s.finish p r).opcode = s.opcode := rfl
@[simp] theorem State.finish_fb (s : State) (p : Word) (r : Report) : (s.finish p r).fb = s.fb := rfl
@[simp] theorem State.finish_keys (s : State) (p : Word) (r : Report) : (s.finish p r).keys = s.keys := rfl
@[simp] theorem State.finish_rngQueue (s : State) (p : Word) (r : Report) : (s.finish p r).rngQueue = s.rngQueue := rfl
@[simp] theorem State.finish_rngDraws (s : State) (p : Word) (r : Report) : (s.finish p r).rngDraws = s.rngDraws := rfl
@[simp] theorem State.finish_params (s : State) (p : Word) (r : Report) : (s.finish p r).params = s.params := rfl
@[simp] theorem State.finish_pending (s : State) (p : Word) (r : Report) : (s.finish p r).pending = s.pending := rfl
@[simp] theorem State.finish_report (s : State) (p : Word) (r : Report) : (s.finish p r).report = r := rfl
@[simp] theorem State.finish_getV (s : State) (p : Word) (r : Report) (y : Reg) : (s.finish p r).getV y = s.getV y := rfl
@[simp] theorem State.finish_isDown (s : State) (p : Word) (r : Report) : (s.finish p r).isDown = s.isDown := rfl
@[simp] theorem State.finish_draw (s : State) (p : Word) (r : Report) : (s.finish p r).draw = s.draw := rfl

/-! ## drawn -/

@[simp] theorem State.drawn_mem (s : State) : (s.drawn).mem = s.mem := rfl
@[simp] theorem State.drawn_v (s : State) : (s.drawn).v = s.v := rfl
@[simp] theorem State.drawn_i (s : State) : (s.drawn).i = s.i := rfl
@[simp] theorem State.drawn_pc (s : State) : (s.drawn).pc = s.pc := rfl
@[simp] theorem State.drawn_stack (s : State) : (s.drawn).stack = s.stack := rfl
@[simp] theorem State.drawn_dt (s : State) : (s.drawn).dt = s.dt := rfl
@[simp] theorem State.drawn_st (s : State) : (s.drawn).st = s.st := rfl
@[simp] theorem State.drawn_opcode (s : State) : (s.drawn).opcode = s.opcode := rfl
@[simp] theorem State.drawn_fb (s : State) : (s.drawn).fb = s.fb := rfl
@[simp] theorem State.drawn_keys (s : State) : (s.drawn).keys = s.keys := rfl
@[simp] theorem State.drawn_rngQueue (s : State) : (s.drawn).rngQueue = s.rngQueue.tail := rfl
@[simp] theorem State.drawn_rngDraws (s : State) : (s.drawn).rngDraws = s.rngDraws + 1 := rfl
@[simp] theorem State.drawn_params (s : State) : (s.drawn).params = s.params := rfl
@[simp] theorem State.drawn_pending (s : State) : (s.drawn).pending = s.pending := rfl
@[simp] theorem State.drawn_report (s : State) : (s.drawn).report = s.report := rfl
@[simp] theorem State.drawn_getV (s : State) (y : Reg) : (s.drawn).getV y = s.getV y := rfl
@[simp] theorem State.drawn_isDown (s : State) : (s.drawn).isDown = s.isDown := rfl

/-! ## dequeued -/

@[simp] theorem State.dequeued_mem (s : State) : (s.dequeued).mem = s.mem := rfl
@[simp] theorem State.dequeued_v (s : State) : (s.dequeued).v = s.v := rfl
@[simp] theorem State.dequeued_i (s : State) : (s.dequeued).i = s.i := rfl
@[simp] theorem State.dequeued_pc (s : State) : (s.dequeued).pc = s.pc := rfl
@[simp] theorem State.dequeued_stack (s : State) : (s.dequeued).stack = s.stack := rfl
@[simp] theorem State.dequeued_dt (s : State) : (s.dequeued).dt = s.dt := rfl
@[simp] theorem State.dequeued_st (s : State) : (s.dequeued).st = s.st := rfl
@[simp] theorem State.dequeued_opcode (s : State) : (s.dequeued).opcode = s.opcode := rfl
@[simp] theorem State.dequeued_fb (s : State) : (s.dequeued).fb = s.fb := rfl
@[simp] theorem State.dequeued_keys (s : State) : (s.dequeued).keys = s.keys := rfl
@[simp] theorem State.dequeued_rngQueue (s : State) : (s.dequeued).rngQueue = s.rngQueue := rfl
@[simp] theorem State.dequeued_rngDraws (s : State) : (s.dequeued).rngDraws = s.rngDraws := rfl
@[simp] theorem State.dequeued_params (s : State) : (s.dequeued).params = s.params := rfl
@[simp] theorem State.dequeued_pending (s : State) : (s.dequeued).pending = s.pending.tail := rfl
@[simp] theorem State.dequeued_report (s : State) : (s.dequeued).report = s.report := rfl
@[simp] theorem State.dequeued_getV (s : State) (y : Reg) : (s.dequeued).getV y = s.getV y := rfl
@[simp] theorem State.dequeued_isDown (s : State) : (s.dequeued).isDown = s.isDown := rfl
@[simp] theorem State.dequeued_draw (s : State) : (s.dequeued).draw = s.draw := rfl

/-! ## Registers -/

/-- A register after a write: the written one has the new value, every other its old one. -/
theorem State.getV_setV (s : State) (x y : Reg) (b : Byte) : (s.setV x b).getV y = if y = x then b else s.getV y := by
  simp only [State.getV, State.setV, Vector.getElem_set, BitVec.toNat_inj, eq_comm]

@[simp] theorem State.getV_setV_same (s : State) (x : Reg) (b : Byte) : (s.setV x b).getV x = b := by
  simp [State.getV_setV]

theorem State.getV_setV_ne (s : State) {x y : Reg} (b : Byte) (h : y ≠ x) : (s.setV x b).getV y = s.getV y := by
  simp [State.getV_setV, h]

/-- VF and the destination after a flag-writing instruction: the destination wins when it is VF (42_alu R140). -/
theorem State.getV_setFlagThen (s : State) (c : Bool) (x y : Reg) (r : Byte) :
    (s.setFlagThen c x r).getV y = if y = x then r else if y = vF then flagByte c else s.getV y := by
  simp [State.setFlagThen, State.getV_setV]

/-- Writing the flag and the result changes the registers only. -/
theorem State.setFlagThen_eq (s : State) (c : Bool) (x : Reg) (r : Byte) :
    s.setFlagThen c x r = { s with v := (s.setFlagThen c x r).v } := rfl

/-- Two register files agree when every register does. -/
theorem State.v_ext {s t : State} (h : ∀ y, t.getV y = s.getV y) : t.v = s.v := by
  apply Vector.ext
  intro k hk
  simpa [State.getV, Nat.mod_eq_of_lt hk] using h (BitVec.ofNat 4 k)

@[simp] theorem State.reset_getV (y : Reg) : State.reset.getV y = 0 := by
  simp [State.getV, State.reset]

end Sys2Proof.Machine
end

