-- ==== Sys2Proof/Laws/Ops.lean ====
section
/-! SUPPORT. For each shared operation, what it can answer (00_scope R9; 20_memory R51; 10_state R26; 43_index_memory R173 to R175;
44_display R190, R192; 45_timers_keys R212). -/

namespace Sys2Proof.Machine

/-! ## How an instruction ends -/

theorem advance_eq (s : State) : advance s = .next (s.finish (s.pc + 2#16) .ok) := rfl

theorem jumpTo_eq (target : Word) (s : State) : jumpTo target s = .next (s.finish target .ok) := rfl

theorem skipIf_eq (c : Bool) (s : State) : skipIf c s = .next (s.finish (s.pc + (if c then 4#16 else 2#16)) .ok) := rfl

theorem retryStep_eq (s : State) : retryStep s = .next (s.finish s.pc .waitKey) := rfl

theorem reportUnknown_eq (w : Word) (s : State) : reportUnknown w s = .next (s.finish (s.pc + 2#16) (.unknownOpcode w)) := rfl

/-! ## The range check -/

theorem inRange_iff (a : Word) (n : Nat) : inRange a n ↔ n = 0 ∨ a.toNat + n - 1 ≤ 0xFFF := Iff.rfl

theorem withAccess_inRange {s : State} {a : Word} {n : Nat} {k : AccessKind} {r : Result} (h : inRange a n) :
    withAccess s a n k r = r := if_pos h

theorem withAccess_outOfRange {s : State} {a : Word} {n : Nat} {k : AccessKind} {r : Result} (h : ¬ inRange a n) :
    withAccess s a n k r = .fault (.addressOutOfRange (failAddr a) k s.pc) := if_neg h

/-- If a checked access answers a next state, the access was in range and the rest of the instruction answers that state. -/
theorem withAccess_next {s t : State} {a : Word} {n : Nat} {k : AccessKind} {r : Result}
    (h : withAccess s a n k r = .next t) : inRange a n ∧ r = .next t := by
  by_cases hr : inRange a n
  · exact ⟨hr, by rwa [withAccess_inRange hr] at h⟩
  · rw [withAccess_outOfRange hr] at h; cases h

/-- `max(a, 0x1000)` as a number (20_memory R51). -/
theorem failAddr_toNat (a : Word) : (failAddr a).toNat = max a.toNat 0x1000 := by
  unfold failAddr
  split_ifs with h <;> simp [Config.memSize] at h ⊢ <;> omega

/-! ## The call stack -/

theorem pushStack_room {s : State} {w : Word} {rest : State → Result} (h : s.stack.length < Config.stackDepth) :
    pushStack w rest s = rest (s.setStack (w :: s.stack)) := if_pos h

theorem pushStack_full {s : State} {w : Word} {rest : State → Result} (h : ¬ s.stack.length < Config.stackDepth) :
    pushStack w rest s = .fault (.stackOverflow s.pc) := if_neg h

/-- If a push answers a next state, there was room and the rest answers that state. -/
theorem pushStack_next {s t : State} {w : Word} {rest : State → Result} (h : pushStack w rest s = .next t) :
    s.stack.length < Config.stackDepth ∧ rest (s.setStack (w :: s.stack)) = .next t := by
  by_cases hr : s.stack.length < Config.stackDepth
  · exact ⟨hr, by rwa [pushStack_room hr] at h⟩
  · rw [pushStack_full hr] at h; cases h

theorem popStack_cons {s : State} {a : Word} {below : List Word} {rest : Word → State → Result} (h : s.stack = a :: below) :
    popStack rest s = rest a (s.setStack below) := by simp [popStack, h]

theorem popStack_nil {s : State} {rest : Word → State → Result} (h : s.stack = []) :
    popStack rest s = .fault (.stackUnderflow s.pc) := by simp [popStack, h, raiseFatal]

/-- If a pop answers a next state, an entry was there and the rest answers that state. -/
theorem popStack_next {s t : State} {rest : Word → State → Result} (h : popStack rest s = .next t) :
    ∃ a below, s.stack = a :: below ∧ rest a (s.setStack below) = .next t := by
  cases hs : s.stack with
  | nil => rw [popStack_nil hs] at h; cases h
  | cons a below => exact ⟨a, below, rfl, by rwa [popStack_cons hs] at h⟩

/-! ## Operand forms -/

/-- `zext_16(nnn)` as a number (30_encoding R73). -/
theorem addrWord_toNat (nnn : Addr) : (addrWord nnn).toNat = nnn.toNat := by
  rw [addrWord, BitVec.toNat_setWidth_of_le (by omega)]

/-- `zext_16` of a byte as a number. -/
theorem byteWord_toNat (b : Byte) : (byteWord b).toNat = b.toNat := by
  rw [byteWord, BitVec.toNat_setWidth_of_le (by omega)]

/-- A key index as a number. -/
theorem nibbleByte_toNat (k : Nibble) : (nibbleByte k).toNat = k.toNat := by
  rw [nibbleByte, BitVec.toNat_setWidth_of_le (by omega)]

/-- The low nibble as a number. -/
theorem lowNibble_toNat (b : Byte) : (lowNibble b).toNat = b.toNat % 16 := by
  rw [lowNibble, BitVec.toNat_setWidth]

/-! ## Registers V0 to VX -/

/-- V0 to VX are the registers up to number X. -/
theorem mem_regsThrough (x y : Reg) : y ∈ regsThrough x ↔ y.toNat ≤ x.toNat := by
  revert x y; decide

theorem regsThrough_length (x : Reg) : (regsThrough x).length = regCount x := by
  revert x; decide

/-- The register at place `k` of V0 to VX is V`k`. -/
theorem regsThrough_getElem? (x y : Reg) : (regsThrough x)[y.toNat]? = if y.toNat ≤ x.toNat then some y else none := by
  revert x y; decide

/-- A register after FX65's loads: V0 to VX hold the bytes from I on, the others their old values (43_index_memory R175). -/
theorem loadRegs_getV (s : State) (x y : Reg) :
    (loadRegs s x).getV y = if y.toNat ≤ x.toNat then Memory.read s.mem (byteAddr s.i y.toNat) else s.getV y := by
  have fold : ∀ (l : List Reg) (t : State), (l.foldl (fun t k => t.setV k (Memory.read s.mem (byteAddr s.i k.toNat))) t).getV y =
      if y ∈ l then Memory.read s.mem (byteAddr s.i y.toNat) else t.getV y := by
    intro l
    induction l with
    | nil => intro t; rfl
    | cons k l ih =>
      intro t
      rw [List.foldl_cons, ih]
      by_cases hl : y ∈ l
      · simp [hl]
      · by_cases hk : y = k
        · subst hk; simp
        · simp [hl, hk, State.getV_setV]
  rw [loadRegs, fold]
  simp only [mem_regsThrough]

/-- FX65's loads change the registers only. -/
theorem loadRegs_eq (s : State) (x : Reg) : loadRegs s x = { s with v := (loadRegs s x).v } := by
  have fold : ∀ (l : List Reg) (f : Reg → Byte) (t : State),
      l.foldl (fun t k => t.setV k (f k)) t = { t with v := (l.foldl (fun t k => t.setV k (f k)) t).v } := by
    intro l f
    induction l with
    | nil => intro t; rfl
    | cons k l ih => intro t; rw [List.foldl_cons, ih (t.setV k (f k))]; rfl
  exact fold _ _ s

/-! ## The frame buffer -/

/-- Two frame buffers agree when every pixel does. -/
theorem Frame.ext_get {f g : Frame} (h : ∀ x y, Frame.get f x y = Frame.get g x y) : f = g := by
  apply Vector.ext
  intro j hj
  apply Vector.ext
  intro k hk
  exact h ⟨k, hk⟩ ⟨j, hj⟩

@[simp] theorem Frame.get_cleared (x : Fin Config.fbW) (y : Fin Config.fbH) : Frame.get Frame.cleared x y = false := by
  simp [Frame.get, Frame.cleared]

/-- A pixel after `setXor`: the named one is inverted (44_display R190). -/
theorem Frame.get_setXor (f : Frame) (x x' : Fin Config.fbW) (y y' : Fin Config.fbH) :
    Frame.get (Frame.setXor f x y).1 x' y' = if x' = x ∧ y' = y then !Frame.get f x y else Frame.get f x' y' := by
  by_cases hy : y = y'
  · subst hy
    by_cases hx : x = x'
    · subst hx; simp [Frame.get, Frame.setXor]
    · have : x.val ≠ x'.val := fun h => hx (Fin.ext h)
      simp [Frame.get, Frame.setXor, Vector.getElem_set_ne, this, Ne.symm hx]
  · have : y.val ≠ y'.val := fun h => hy (Fin.ext h)
    simp [Frame.get, Frame.setXor, Vector.getElem_set_ne, this, Ne.symm hy]

/-- `setXor` returns the old pixel (44_display R190). -/
theorem Frame.setXor_prior (f : Frame) (x : Fin Config.fbW) (y : Fin Config.fbH) : (Frame.setXor f x y).2 = Frame.get f x y := rfl

/-! ## The key scan -/

/-- The key scan answers the lowest key that is down, and none iff no key is down (45_timers_keys R212). -/
theorem firstKeyDown_eq_some {s : State} {k : Nibble} :
    firstKeyDown s = some k ↔ s.isDown k = true ∧ ∀ j, j.toNat < k.toNat → s.isDown j = false := by
  have scan : ∀ (p : Nibble → Bool) (k : Nibble),
      allNibbles.find? p = some k ↔ p k = true ∧ ∀ j, j.toNat < k.toNat → p j = false := by
    intro p k
    rw [List.find?_eq_some_iff_getElem]
    constructor
    · rintro ⟨hp, n, hn, hk, hlt⟩
      refine ⟨hp, fun j hj => ?_⟩
      have at_place : ∀ j : Nibble, ∃ h : j.toNat < allNibbles.length, allNibbles[j.toNat] = j := by decide
      obtain ⟨h1, e1⟩ := at_place j
      have hkn : n = k.toNat := by
        have place : ∀ n (hn : n < allNibbles.length), allNibbles[n].toNat = n := by decide
        rw [← place n hn, hk]
      have := hlt j.toNat (by omega)
      rw [e1] at this
      simpa using this
    · rintro ⟨hp, hlt⟩
      have at_place : ∀ j : Nibble, ∃ h : j.toNat < allNibbles.length, allNibbles[j.toNat] = j := by decide
      obtain ⟨h1, e1⟩ := at_place k
      refine ⟨hp, k.toNat, h1, e1, fun j hj => ?_⟩
      have place : ∀ n (hn : n < allNibbles.length), allNibbles[n].toNat = n := by decide
      have := hlt allNibbles[j] (by rw [place j (by omega)]; exact hj)
      simpa using this
  exact scan s.isDown k

theorem firstKeyDown_eq_none {s : State} : firstKeyDown s = none ↔ ∀ k, s.isDown k = false := by
  have all : ∀ k : Nibble, k ∈ allNibbles := by decide
  simp only [firstKeyDown, List.find?_eq_none, Bool.not_eq_true]
  exact ⟨fun h k => h k (all k), fun h k _ => h k⟩

end Sys2Proof.Machine
end

