-- ==== Sys2Proof/Laws/Display.lean ====
section
/-! SUPPORT. A sprite as the list of the pixels it inverts, no pixel twice, and what drawing such a list does to a frame (44_display R190, R192). -/

namespace Sys2Proof.Machine

/-- A place on the screen. -/
abbrev Pixel := Fin Config.fbW × Fin Config.fbH

/-- The pixels inverted in order, with the collision so far. -/
def drawPixels (ps : List Pixel) (d : Frame × Bool) : Frame × Bool :=
  ps.foldl (fun d p => ((Frame.setXor d.1 p.1 p.2).1, d.2 || (Frame.setXor d.1 p.1 p.2).2)) d

/-- The pixels under the set bits of one row. -/
def rowPixels (xs ys : Byte) (row : Nat) (bits : Byte) : List Pixel :=
  ((List.range 8).filter (spriteBit bits)).map fun col => (wrapX xs col, wrapY ys row)

/-- The pixels under the set bits of the rows from number `row` on. -/
def spritePixels (xs ys : Byte) : Nat → List Byte → List Pixel
  | _, [] => []
  | row, bits :: rest => rowPixels xs ys row bits ++ spritePixels xs ys (row + 1) rest

theorem drawPixels_append (ps qs : List Pixel) (d : Frame × Bool) : drawPixels (ps ++ qs) d = drawPixels qs (drawPixels ps d) :=
  List.foldl_append

theorem drawRow_eq_drawPixels (xs ys : Byte) (row : Nat) (bits : Byte) (d : Frame × Bool) :
    drawRow xs ys row bits d = drawPixels (rowPixels xs ys row bits) d := by
  unfold drawRow drawPixels rowPixels
  rw [List.foldl_map]
  generalize List.range 8 = cols
  induction cols generalizing d with
  | nil => rfl
  | cons col cols ih =>
    by_cases h : spriteBit bits col = true
    · simp only [List.foldl_cons, if_pos h, ih, List.filter_cons_of_pos h]; rfl
    · simp only [List.foldl_cons, if_neg h, ih, List.filter_cons_of_neg h]

/-- Drawing the rows of a sprite is inverting its pixels one by one. -/
theorem drawRows_eq_drawPixels (xs ys : Byte) (row : Nat) (rows : List Byte) (d : Frame × Bool) :
    drawRows xs ys row rows d = drawPixels (spritePixels xs ys row rows) d := by
  induction rows generalizing row d with
  | nil => rfl
  | cons bits rows ih => rw [drawRows, spritePixels, drawPixels_append, ih, drawRow_eq_drawPixels]

/-- Which pixels a sprite covers. -/
theorem mem_spritePixels (xs ys : Byte) (row : Nat) (rows : List Byte) (p : Pixel) :
    p ∈ spritePixels xs ys row rows ↔
      ∃ k col, ∃ h : k < rows.length, col < 8 ∧ spriteBit rows[k] col = true ∧ wrapX xs col = p.1 ∧ wrapY ys (row + k) = p.2 := by
  induction rows generalizing row with
  | nil => simp [spritePixels]
  | cons bits rows ih =>
    rw [spritePixels, List.mem_append, ih]
    constructor
    · rintro (h | ⟨k, col, hk, hcol, hbit, hx, hy⟩)
      · simp only [rowPixels, List.mem_map, List.mem_filter, List.mem_range] at h
        obtain ⟨col, ⟨hcol, hbit⟩, rfl⟩ := h
        exact ⟨0, col, by simp, hcol, hbit, rfl, rfl⟩
      · exact ⟨k + 1, col, by simpa using hk, hcol, by simpa using hbit, hx, by rw [← hy]; congr 1; omega⟩
    · rintro ⟨k, col, hk, hcol, hbit, hx, hy⟩
      cases k with
      | zero =>
        left
        simp only [rowPixels, List.mem_map, List.mem_filter, List.mem_range]
        exact ⟨col, ⟨hcol, by simpa using hbit⟩, Prod.ext hx hy⟩
      | succ k => exact .inr ⟨k, col, by simpa using hk, hcol, by simpa using hbit, hx, by rw [← hy]; congr 1; omega⟩

theorem rowPixels_nodup (xs ys : Byte) (row : Nat) (bits : Byte) : (rowPixels xs ys row bits).Nodup := by
  refine List.Nodup.map_on ?_ (List.nodup_range.filter _)
  intro a ha b hb h
  simp only [List.mem_filter, List.mem_range] at ha hb
  have h' := congrArg Fin.val (congrArg Prod.fst h)
  simp [wrapX, Fin.ofNat] at h'
  omega

/-- A sprite of at most 32 rows covers no pixel twice on a 64 x 32 screen (44_display R193). -/
theorem spritePixels_nodup (xs ys : Byte) (row : Nat) (rows : List Byte) (h : rows.length ≤ 32) :
    (spritePixels xs ys row rows).Nodup := by
  induction rows generalizing row with
  | nil => exact List.nodup_nil
  | cons bits rows ih =>
    refine List.nodup_append.mpr ⟨rowPixels_nodup .., ih _ (by simp at h; omega), ?_⟩
    intro p hp q hq hpq
    subst hpq
    obtain ⟨k, col, hk, _, _, _, hy⟩ := (mem_spritePixels _ _ _ _ _).mp hq
    simp only [rowPixels, List.mem_map] at hp
    obtain ⟨_, _, rfl⟩ := hp
    have hy' := congrArg Fin.val hy
    simp [wrapY, Fin.ofNat] at hy' h
    omega

/-- Drawing pixels, none twice: each is inverted, every other stays, and a collision is reported iff one was set, or one was reported before. -/
theorem drawPixels_spec {ps : List Pixel} (hps : ps.Nodup) (d : Frame × Bool) :
    (∀ x y, Frame.get (drawPixels ps d).1 x y = (Frame.get d.1 x y ^^ decide ((x, y) ∈ ps))) ∧
    (drawPixels ps d).2 = (d.2 || ps.any fun p => Frame.get d.1 p.1 p.2) := by
  induction ps generalizing d with
  | nil => simp [drawPixels]
  | cons p ps ih =>
    obtain ⟨hp, hps'⟩ := List.nodup_cons.mp hps
    obtain ⟨h1, h2⟩ := ih hps' ((Frame.setXor d.1 p.1 p.2).1, d.2 || (Frame.setXor d.1 p.1 p.2).2)
    refine ⟨fun x y => ?_, ?_⟩
    · refine (h1 x y).trans ?_
      rw [Frame.get_setXor]
      by_cases hxy : (x, y) = p
      · subst hxy; simp [hp]
      · have : ¬ (x = p.1 ∧ y = p.2) := fun h => hxy (Prod.ext h.1 h.2)
        simp [this, hxy]
    · refine h2.trans ?_
      rw [Frame.setXor_prior, List.any_cons, Bool.or_assoc]
      congr 2
      rw [Bool.eq_iff_iff]
      simp only [List.any_eq_true]
      refine exists_congr fun q => and_congr_right fun hq => ?_
      have : ¬ (q.1 = p.1 ∧ q.2 = p.2) := fun h => hp (Prod.ext h.1 h.2 ▸ hq)
      rw [Frame.get_setXor, if_neg this]

end Sys2Proof.Machine
end

