-- ==== Sys2Proof/Laws/HostOps.lean ====
section
/-! SUPPORT. What the host's transactions leave: the countdown as arithmetic, memory after reset and load, that reset and load keep the canonical form
(60_exceptions R240; 70_reset R260, R261). -/

namespace Sys2Proof.Machine

/-- One decrement, floored at 0. -/
theorem countDown_toNat (t : Byte) : (countDown t).toNat = t.toNat - 1 := by
  unfold countDown
  split
  · rw [BitVec.toNat_sub_of_le (BitVec.le_def.mpr (by simpa using by omega))]
    rfl
  · omega

/-- State.reset's memory is in canonical form. -/
theorem State.reset_mem_wf : Memory.wf State.reset.mem := ⟨List.Pairwise.nil, by simp [State.reset]⟩

/-- Memory after reset is in canonical form, whatever the FONT argument. -/
theorem fontMemory_wf (font : Vector Byte Config.fontSize) : Memory.wf (fontMemory font) :=
  Memory.writeBytes_wf (.inr (by simp)) ⟨List.Pairwise.nil, by simp⟩

/-- Memory after reset: the FONT argument, then zeros. -/
theorem fontMemory_read (font : Vector Byte Config.fontSize) (a : Nat) :
    Memory.read (fontMemory font) a = if h : a < 80 then font[a] else 0 := by
  rw [fontMemory, Memory.read_writeBytes List.Pairwise.nil, if_pos (Nat.zero_le a)]
  by_cases h : a < 80 <;> simp [h, Memory.read, Memory.unlisted]

/-- A load that is accepted keeps memory in canonical form. -/
theorem loadRom_mem_wf {rom : List Byte} {s : State} (hs : Memory.wf s.mem) : Memory.wf (loadRom rom s).mem := by
  unfold loadRom
  split
  · exact hs
  · rename_i h
    refine Memory.writeBytes_wf (.inr ?_) (fontMemory_wf _)
    simp at h ⊢
    omega

/-- Memory after a load that is accepted: the ROM from 0x200 on, elsewhere as after reset. -/
theorem loadRom_read {rom : List Byte} {s : State} (h : ¬ Config.romMax < rom.length) (a : Nat) :
    Memory.read (loadRom rom s).mem a =
      if 0x200 ≤ a then (rom[a - 0x200]?).getD (Memory.read (fontMemory s.params.font) a) else Memory.read (fontMemory s.params.font) a := by
  rw [loadRom, if_neg h]
  exact Memory.read_writeBytes (fontMemory_wf _).1 _ _ _

end Sys2Proof.Machine
end

