-- ==== Sys2Proof/Laws/PerInstr.lean ====
section
/-! SUPPORT. The rows of spec/opcode_table.json as masks and matches, and one lemma per constructor that its word lies in its row, whatever
the operands (30_encoding R72, R75). -/

namespace Sys2Proof.Laws.EncodesRow

/-- A row of the opcode table: the fixed bits and their values. -/
structure Row where
  mask : Word
  value : Word
  deriving DecidableEq, Repr

/-- The row of each kind, copied from spec/opcode_table.json. -/
def row : Instr → Row
  | .sys _ => ⟨0xF000#16, 0x0000#16⟩
  | .cls _ => ⟨0xF0FF#16, 0x00E0#16⟩
  | .ret _ => ⟨0xF0FF#16, 0x00EE#16⟩
  | .jp _ => ⟨0xF000#16, 0x1000#16⟩
  | .call _ => ⟨0xF000#16, 0x2000#16⟩
  | .seVxNn _ _ => ⟨0xF000#16, 0x3000#16⟩
  | .sneVxNn _ _ => ⟨0xF000#16, 0x4000#16⟩
  | .seVxVy _ _ => ⟨0xF00F#16, 0x5000#16⟩
  | .ldVxNn _ _ => ⟨0xF000#16, 0x6000#16⟩
  | .addVxNn _ _ => ⟨0xF000#16, 0x7000#16⟩
  | .ldVxVy _ _ => ⟨0xF00F#16, 0x8000#16⟩
  | .orVxVy _ _ => ⟨0xF00F#16, 0x8001#16⟩
  | .andVxVy _ _ => ⟨0xF00F#16, 0x8002#16⟩
  | .xorVxVy _ _ => ⟨0xF00F#16, 0x8003#16⟩
  | .addVxVy _ _ => ⟨0xF00F#16, 0x8004#16⟩
  | .subVxVy _ _ => ⟨0xF00F#16, 0x8005#16⟩
  | .shrVx _ _ => ⟨0xF00F#16, 0x8006#16⟩
  | .subnVxVy _ _ => ⟨0xF00F#16, 0x8007#16⟩
  | .shlVx _ _ => ⟨0xF00F#16, 0x800E#16⟩
  | .sneVxVy _ _ => ⟨0xF00F#16, 0x9000#16⟩
  | .ldI _ => ⟨0xF000#16, 0xA000#16⟩
  | .jpV0 _ => ⟨0xF000#16, 0xB000#16⟩
  | .rnd _ _ => ⟨0xF000#16, 0xC000#16⟩
  | .drw _ _ _ => ⟨0xF000#16, 0xD000#16⟩
  | .skp _ => ⟨0xF0FF#16, 0xE09E#16⟩
  | .sknp _ => ⟨0xF0FF#16, 0xE0A1#16⟩
  | .ldVxDt _ => ⟨0xF0FF#16, 0xF007#16⟩
  | .ldVxK _ => ⟨0xF0FF#16, 0xF00A#16⟩
  | .ldDtVx _ => ⟨0xF0FF#16, 0xF015#16⟩
  | .ldStVx _ => ⟨0xF0FF#16, 0xF018#16⟩
  | .addIVx _ => ⟨0xF0FF#16, 0xF01E#16⟩
  | .ldFVx _ => ⟨0xF0FF#16, 0xF029#16⟩
  | .ldBVx _ => ⟨0xF0FF#16, 0xF033#16⟩
  | .ldMemVx _ => ⟨0xF0FF#16, 0xF055#16⟩
  | .ldVxMem _ => ⟨0xF0FF#16, 0xF065#16⟩

/-- The word of the instruction has the fixed bits of its row. -/
def Statement (i : Instr) : Prop := encode i &&& (row i).mask = (row i).value

theorem formatA_row (c : Nibble) (nnn : Addr) : formatA c nnn &&& 0xF000#16 = BitVec.ofNat 16 (c.toNat * 4096) :=
  mask3_eq _ (by omega) (by rw [formatA_toNat]; omega)

theorem formatXK_row (c x : Nibble) (k : Byte) : formatXK c x k &&& 0xF0FF#16 = BitVec.ofNat 16 (c.toNat * 4096 + k.toNat) :=
  mask1_eq _ (by omega) (by rw [formatXK_toNat]; omega)

theorem formatXK_family (c x : Nibble) (k : Byte) : formatXK c x k &&& 0xF000#16 = BitVec.ofNat 16 (c.toNat * 4096) :=
  mask3_eq _ (by omega) (by rw [formatXK_toNat]; omega)

theorem formatXYN_row (c x y n : Nibble) : formatXYN c x y n &&& 0xF00F#16 = BitVec.ofNat 16 (c.toNat * 4096 + n.toNat) :=
  mask2_eq _ (by omega) (by rw [formatXYN_toNat]; omega)

theorem formatXYN_family (c x y n : Nibble) : formatXYN c x y n &&& 0xF000#16 = BitVec.ofNat 16 (c.toNat * 4096) :=
  mask3_eq _ (by omega) (by rw [formatXYN_toNat]; omega)

theorem sys (nnn : Addr) : Statement (.sys nnn) := formatA_row _ _
theorem cls (z : Nibble) : Statement (.cls z) := formatXK_row _ _ _
theorem ret (z : Nibble) : Statement (.ret z) := formatXK_row _ _ _
theorem jp (nnn : Addr) : Statement (.jp nnn) := formatA_row _ _
theorem call (nnn : Addr) : Statement (.call nnn) := formatA_row _ _
theorem seVxNn (x : Reg) (nn : Byte) : Statement (.seVxNn x nn) := formatXK_family _ _ _
theorem sneVxNn (x : Reg) (nn : Byte) : Statement (.sneVxNn x nn) := formatXK_family _ _ _
theorem seVxVy (x y : Reg) : Statement (.seVxVy x y) := formatXYN_row _ _ _ _
theorem ldVxNn (x : Reg) (nn : Byte) : Statement (.ldVxNn x nn) := formatXK_family _ _ _
theorem addVxNn (x : Reg) (nn : Byte) : Statement (.addVxNn x nn) := formatXK_family _ _ _
theorem ldVxVy (x y : Reg) : Statement (.ldVxVy x y) := formatXYN_row _ _ _ _
theorem orVxVy (x y : Reg) : Statement (.orVxVy x y) := formatXYN_row _ _ _ _
theorem andVxVy (x y : Reg) : Statement (.andVxVy x y) := formatXYN_row _ _ _ _
theorem xorVxVy (x y : Reg) : Statement (.xorVxVy x y) := formatXYN_row _ _ _ _
theorem addVxVy (x y : Reg) : Statement (.addVxVy x y) := formatXYN_row _ _ _ _
theorem subVxVy (x y : Reg) : Statement (.subVxVy x y) := formatXYN_row _ _ _ _
theorem shrVx (x y : Reg) : Statement (.shrVx x y) := formatXYN_row _ _ _ _
theorem subnVxVy (x y : Reg) : Statement (.subnVxVy x y) := formatXYN_row _ _ _ _
theorem shlVx (x y : Reg) : Statement (.shlVx x y) := formatXYN_row _ _ _ _
theorem sneVxVy (x y : Reg) : Statement (.sneVxVy x y) := formatXYN_row _ _ _ _
theorem ldI (nnn : Addr) : Statement (.ldI nnn) := formatA_row _ _
theorem jpV0 (nnn : Addr) : Statement (.jpV0 nnn) := formatA_row _ _
theorem rnd (x : Reg) (nn : Byte) : Statement (.rnd x nn) := formatXK_family _ _ _
theorem drw (x y : Reg) (n : Nibble) : Statement (.drw x y n) := formatXYN_family _ _ _ _
theorem skp (x : Reg) : Statement (.skp x) := formatXK_row _ _ _
theorem sknp (x : Reg) : Statement (.sknp x) := formatXK_row _ _ _
theorem ldVxDt (x : Reg) : Statement (.ldVxDt x) := formatXK_row _ _ _
theorem ldVxK (x : Reg) : Statement (.ldVxK x) := formatXK_row _ _ _
theorem ldDtVx (x : Reg) : Statement (.ldDtVx x) := formatXK_row _ _ _
theorem ldStVx (x : Reg) : Statement (.ldStVx x) := formatXK_row _ _ _
theorem addIVx (x : Reg) : Statement (.addIVx x) := formatXK_row _ _ _
theorem ldFVx (x : Reg) : Statement (.ldFVx x) := formatXK_row _ _ _
theorem ldBVx (x : Reg) : Statement (.ldBVx x) := formatXK_row _ _ _
theorem ldMemVx (x : Reg) : Statement (.ldMemVx x) := formatXK_row _ _ _
theorem ldVxMem (x : Reg) : Statement (.ldVxMem x) := formatXK_row _ _ _

end Sys2Proof.Laws.EncodesRow
end

