-- ==== Sys2Proof/Laws/Step.lean ====
section
/-! SUPPORT. What the fetch can answer, and a step as the fetch followed by the fetched word (20_memory R51 to R53; 40_flow R100). -/

namespace Sys2Proof.Machine

theorem word_bit0 (a : Word) : a.getLsbD 0 = decide (a.toNat % 2 = 1) := by
  simp [BitVec.getLsbD, Nat.testBit_zero]

theorem failAddr_eq (a : Word) : failAddr a = BitVec.ofNat 16 (max a.toNat 0x1000) := by
  apply BitVec.eq_of_toNat_eq
  rw [failAddr_toNat]
  simp
  omega

/-- The fetch at an even PC with two bytes in range. -/
theorem fetch_word {s : State} (even : s.pc.toNat % 2 = 0) (range : s.pc.toNat ≤ 0xFFE) :
    fetch s = .word (wordOfBytes (Memory.read s.mem s.pc.toNat) (Memory.read s.mem (s.pc.toNat + 1))) := by
  rw [fetch, if_neg (by rw [inRange_iff]; omega), if_neg (by rw [word_bit0]; simp; omega)]

/-- The fetch past 0xFFE. -/
theorem fetch_outOfRange {s : State} (h : 0xFFE < s.pc.toNat) :
    fetch s = .fatal (.addressOutOfRange (BitVec.ofNat 16 (max s.pc.toNat 0x1000)) .fetch s.pc) := by
  rw [fetch, if_pos (by rw [inRange_iff]; omega), failAddr_eq]

/-- The fetch at an odd PC in range. -/
theorem fetch_misaligned {s : State} (range : s.pc.toNat ≤ 0xFFE) (odd : s.pc.toNat % 2 = 1) :
    fetch s = .fatal (.misalignedPc s.pc) := by
  rw [fetch, if_neg (by rw [inRange_iff]; omega), if_pos (by rw [word_bit0]; simpa using odd)]

/-- If the fetch answers a word, the PC was even and in range and the word is the big-endian word there. -/
theorem fetch_word_inv {s : State} {w : Word} (h : fetch s = .word w) :
    s.pc.toNat % 2 = 0 ∧ s.pc.toNat ≤ 0xFFE ∧ w = wordOfBytes (Memory.read s.mem s.pc.toNat) (Memory.read s.mem (s.pc.toNat + 1)) := by
  by_cases range : s.pc.toNat ≤ 0xFFE
  · by_cases even : s.pc.toNat % 2 = 0
    · rw [fetch_word even range] at h
      cases h
      exact ⟨even, range, rfl⟩
    · rw [fetch_misaligned range (by omega)] at h
      cases h
  · rw [fetch_outOfRange (by omega)] at h
    cases h

/-- The fetch depends on the PC and the memory only. -/
theorem fetch_congr {s t : State} (hpc : t.pc = s.pc) (hmem : t.mem = s.mem) : fetch t = fetch s := by
  simp only [fetch, hpc, hmem]

/-- A move that is a step, as the fetch and what follows it. -/
theorem step_of_step {s : State} (h : s.nextAction = .step) : step s = runInstr s.dequeued := by
  rw [step, h]; rfl

/-- A step whose fetch answers a word executes the word on the latched state. -/
theorem runInstr_word {s : State} {w : Word} (h : fetch s = .word w) : runInstr s = execWord w (s.latch w) := by
  rw [runInstr, h]

/-- A step whose fetch fails ends in that fatal outcome. -/
theorem runInstr_fatal {s : State} {f : Fault} (h : fetch s = .fatal f) : runInstr s = .fault f := by
  rw [runInstr, h]; rfl

/-- If a step answers a next state, its fetch answered a word, and either the decoded instruction answered that state, or the word is UNKNOWN and
was passed over. -/
theorem runInstr_next {s t : State} (h : runInstr s = .next t) :
    ∃ w, fetch s = .word w ∧ ((∃ i, decode w = .instr i ∧ exec i (s.latch w) = .next t) ∨
      (decode w = .unknown w ∧ t = (s.latch w).finish (s.pc + 2#16) (.unknownOpcode w))) := by
  cases hf : fetch s with
  | fatal f => rw [runInstr_fatal hf] at h; cases h
  | word w =>
    rw [runInstr_word hf, execWord] at h
    refine ⟨w, rfl, ?_⟩
    cases hd : decode w with
    | instr i => rw [hd] at h; exact .inl ⟨i, rfl, h⟩
    | unknown u =>
      obtain rfl := (decode_unknown.mp hd).1
      rw [hd] at h
      cases h
      exact .inr ⟨rfl, rfl⟩

end Sys2Proof.Machine
end

