-- ==== Sys2Proof/Tests/Slice0.lean ====
section
/-! SUPPORT. The model's own tests. Expected results are the spec's: the bit patterns of spec/opcode_table.json and the tables of 95_test_vectors (named in
each comment). Then, for every statement of Obligations.lean that has hypotheses, a witness that meets them, at the boundary of each clause. -/

open Sys2Proof Sys2Proof.Machine

namespace Sys2Proof.Tests

/-! ## Helpers -/

/-- State.reset with some registers written. -/
def regs (l : List (Reg × Byte)) : State := l.foldl (fun s p => s.setV p.1 p.2) State.reset

/-- The state with some bytes of memory written. -/
def poked (s : State) (l : List (Nat × Byte)) : State := l.foldl (fun t p => t.setMem (Memory.write t.mem p.1 p.2)) s

/-- The state with the switch LOAD_STORE_INCREMENTS_I set. -/
def switchOn (s : State) : State := { s with params := { s.params with loadStoreIncrementsI := true } }

/-- The next state of a result, or `d` where there is none. -/
def nextState (d : State) : Result → State
  | .next t => t
  | .fault _ => d
  | .refused _ => d

/-- What `f` says of the next state of a result. -/
def ofNext {α : Type} (f : State → α) : Result → Option α
  | .next t => some (f t)
  | .fault _ => none
  | .refused _ => none

/-- The fatal outcome of a result. -/
def ofFault : Result → Option Fault
  | .next _ => none
  | .fault f => some f
  | .refused _ => none

/-- What `f` says of the state after one step on the word `w` placed at the PC. -/
def after {α : Type} (s : State) (w : Nat) (f : State → α) : Option α := ofNext f (step (s.withFetchWord 16 w))

/-- The fatal outcome of one step on the word `w` placed at the PC. -/
def fails (s : State) (w : Nat) : Option Fault := ofFault (step (s.withFetchWord 16 w))

/-- `n` stack entries. -/
def entries (n : Nat) : List Word := List.replicate n 0x204#16

/-! ## Well-formedness (30_encoding section 3): the only check is that a SYS address does not end in 0xE0 or 0xEE -/

theorem test_wf_refuses_sys_cls : (Instr.sys 0x0E0).wf = false := by decide
theorem test_wf_refuses_sys_ret : (Instr.sys 0x1EE).wf = false := by decide
theorem test_wf_accepts_sys : (Instr.sys 0x0E1).wf = true ∧ (Instr.sys 0xE00).wf = true ∧ (Instr.sys 0x000).wf = true := by decide

/-! ## Decode and encode: one word per constructor, written out from the "encoding" of its row of spec/opcode_table.json -/

theorem test_decode_sys : decode 0b0000101001010011#16 = .instr (.sys 0xA53) ∧ encode (.sys 0xA53) = 0b0000101001010011#16 := by decide
theorem test_decode_cls : decode 0b0000100111100000#16 = .instr (.cls 0x9) ∧ encode (.cls 0x9) = 0b0000100111100000#16 := by decide
theorem test_decode_ret : decode 0b0000100111101110#16 = .instr (.ret 0x9) ∧ encode (.ret 0x9) = 0b0000100111101110#16 := by decide
theorem test_decode_jp : decode 0b0001101001010011#16 = .instr (.jp 0xA53) ∧ encode (.jp 0xA53) = 0b0001101001010011#16 := by decide
theorem test_decode_call : decode 0b0010101001010011#16 = .instr (.call 0xA53) ∧ encode (.call 0xA53) = 0b0010101001010011#16 := by decide
theorem test_decode_seVxNn : decode 0b0011101011000101#16 = .instr (.seVxNn 0xA 0xC5) ∧ encode (.seVxNn 0xA 0xC5) = 0b0011101011000101#16 := by decide
theorem test_decode_sneVxNn : decode 0b0100101011000101#16 = .instr (.sneVxNn 0xA 0xC5) ∧ encode (.sneVxNn 0xA 0xC5) = 0b0100101011000101#16 := by decide
theorem test_decode_seVxVy : decode 0b0101101000110000#16 = .instr (.seVxVy 0xA 0x3) ∧ encode (.seVxVy 0xA 0x3) = 0b0101101000110000#16 := by decide
theorem test_decode_ldVxNn : decode 0b0110101011000101#16 = .instr (.ldVxNn 0xA 0xC5) ∧ encode (.ldVxNn 0xA 0xC5) = 0b0110101011000101#16 := by decide
theorem test_decode_addVxNn : decode 0b0111101011000101#16 = .instr (.addVxNn 0xA 0xC5) ∧ encode (.addVxNn 0xA 0xC5) = 0b0111101011000101#16 := by decide
theorem test_decode_ldVxVy : decode 0b1000101000110000#16 = .instr (.ldVxVy 0xA 0x3) ∧ encode (.ldVxVy 0xA 0x3) = 0b1000101000110000#16 := by decide
theorem test_decode_orVxVy : decode 0b1000101000110001#16 = .instr (.orVxVy 0xA 0x3) ∧ encode (.orVxVy 0xA 0x3) = 0b1000101000110001#16 := by decide
theorem test_decode_andVxVy : decode 0b1000101000110010#16 = .instr (.andVxVy 0xA 0x3) ∧ encode (.andVxVy 0xA 0x3) = 0b1000101000110010#16 := by decide
theorem test_decode_xorVxVy : decode 0b1000101000110011#16 = .instr (.xorVxVy 0xA 0x3) ∧ encode (.xorVxVy 0xA 0x3) = 0b1000101000110011#16 := by decide
theorem test_decode_addVxVy : decode 0b1000101000110100#16 = .instr (.addVxVy 0xA 0x3) ∧ encode (.addVxVy 0xA 0x3) = 0b1000101000110100#16 := by decide
theorem test_decode_subVxVy : decode 0b1000101000110101#16 = .instr (.subVxVy 0xA 0x3) ∧ encode (.subVxVy 0xA 0x3) = 0b1000101000110101#16 := by decide
theorem test_decode_shrVx : decode 0b1000101000110110#16 = .instr (.shrVx 0xA 0x3) ∧ encode (.shrVx 0xA 0x3) = 0b1000101000110110#16 := by decide
theorem test_decode_subnVxVy : decode 0b1000101000110111#16 = .instr (.subnVxVy 0xA 0x3) ∧ encode (.subnVxVy 0xA 0x3) = 0b1000101000110111#16 := by decide
theorem test_decode_shlVx : decode 0b1000101000111110#16 = .instr (.shlVx 0xA 0x3) ∧ encode (.shlVx 0xA 0x3) = 0b1000101000111110#16 := by decide
theorem test_decode_sneVxVy : decode 0b1001101000110000#16 = .instr (.sneVxVy 0xA 0x3) ∧ encode (.sneVxVy 0xA 0x3) = 0b1001101000110000#16 := by decide
theorem test_decode_ldI : decode 0b1010101001010011#16 = .instr (.ldI 0xA53) ∧ encode (.ldI 0xA53) = 0b1010101001010011#16 := by decide
theorem test_decode_jpV0 : decode 0b1011101001010011#16 = .instr (.jpV0 0xA53) ∧ encode (.jpV0 0xA53) = 0b1011101001010011#16 := by decide
theorem test_decode_rnd : decode 0b1100101011000101#16 = .instr (.rnd 0xA 0xC5) ∧ encode (.rnd 0xA 0xC5) = 0b1100101011000101#16 := by decide
theorem test_decode_drw : decode 0b1101101000110111#16 = .instr (.drw 0xA 0x3 0x7) ∧ encode (.drw 0xA 0x3 0x7) = 0b1101101000110111#16 := by decide
theorem test_decode_skp : decode 0b1110101010011110#16 = .instr (.skp 0xA) ∧ encode (.skp 0xA) = 0b1110101010011110#16 := by decide
theorem test_decode_sknp : decode 0b1110101010100001#16 = .instr (.sknp 0xA) ∧ encode (.sknp 0xA) = 0b1110101010100001#16 := by decide
theorem test_decode_ldVxDt : decode 0b1111101000000111#16 = .instr (.ldVxDt 0xA) ∧ encode (.ldVxDt 0xA) = 0b1111101000000111#16 := by decide
theorem test_decode_ldVxK : decode 0b1111101000001010#16 = .instr (.ldVxK 0xA) ∧ encode (.ldVxK 0xA) = 0b1111101000001010#16 := by decide
theorem test_decode_ldDtVx : decode 0b1111101000010101#16 = .instr (.ldDtVx 0xA) ∧ encode (.ldDtVx 0xA) = 0b1111101000010101#16 := by decide
theorem test_decode_ldStVx : decode 0b1111101000011000#16 = .instr (.ldStVx 0xA) ∧ encode (.ldStVx 0xA) = 0b1111101000011000#16 := by decide
theorem test_decode_addIVx : decode 0b1111101000011110#16 = .instr (.addIVx 0xA) ∧ encode (.addIVx 0xA) = 0b1111101000011110#16 := by decide
theorem test_decode_ldFVx : decode 0b1111101000101001#16 = .instr (.ldFVx 0xA) ∧ encode (.ldFVx 0xA) = 0b1111101000101001#16 := by decide
theorem test_decode_ldBVx : decode 0b1111101000110011#16 = .instr (.ldBVx 0xA) ∧ encode (.ldBVx 0xA) = 0b1111101000110011#16 := by decide
theorem test_decode_ldMemVx : decode 0b1111101001010101#16 = .instr (.ldMemVx 0xA) ∧ encode (.ldMemVx 0xA) = 0b1111101001010101#16 := by decide
theorem test_decode_ldVxMem : decode 0b1111101001100101#16 = .instr (.ldVxMem 0xA) ∧ encode (.ldVxMem 0xA) = 0b1111101001100101#16 := by decide

-- 95_test_vectors L2 "Decode": the aliases, SYS beside them, and the words no tier matches.
theorem test_decode_aliases : decode 0x01E0#16 = .instr (.cls 0x1) ∧ decode 0x0FEE#16 = .instr (.ret 0xF) ∧
    decode 0x00E1#16 = .instr (.sys 0x0E1) := by decide
theorem test_decode_unknown_58 : decode 0x5121#16 = .unknown 0x5121#16 ∧ decode 0x8008#16 = .unknown 0x8008#16 := by decide
theorem test_decode_unknown_9E : decode 0x9AB1#16 = .unknown 0x9AB1#16 ∧ decode 0xE09F#16 = .unknown 0xE09F#16 := by decide
theorem test_decode_unknown_F : decode 0xF0FF#16 = .unknown 0xF0FF#16 ∧ decode 0xFFFF#16 = .unknown 0xFFFF#16 := by decide
-- 20_memory section 3: the byte at the lower address is the more significant; an instruction has two bytes.
theorem test_decodeBytes : decodeBytes [0x6A, 0x05, 0xFF] = .word (.instr (.ldVxNn 0xA 0x05)) [0xFF] ∧
    decodeBytes [0x6A] = .truncated [0x6A] ∧ decodeBytes [] = .truncated [] := by decide
theorem test_decodeTableWord : decodeTableWord 16 0x6A05 = some (.ldVxNn 0xA 0x05) ∧ decodeTableWord 16 0x5121 = none := by decide

/-! ## Assembler syntax: the lines of the programs of 95_test_vectors L3 -/

/-- Each word decodes to an instruction whose line is written so and assembles to it. -/
def writtenAs (l : List (Word × String)) : Bool :=
  l.all fun p =>
    match decode p.1 with
    | .instr i => (disassemble i).text == p.2 && assemble (disassemble i) == some i
    | .unknown _ => false

theorem test_assembly_L3_first : writtenAs [
    (0x6005#16, "LD V0, 0x05"), (0x6100#16, "LD V1, 0x00"), (0x8104#16, "ADD V1, V0"), (0x70FF#16, "ADD V0, 0xFF"),
    (0x3000#16, "SE V0, 0x00"), (0x1204#16, "JP 0x204"), (0x120C#16, "JP 0x20C"), (0x6A7B#16, "LD VA, 0x7B"),
    (0xA300#16, "LD I, 0x300"), (0x2210#16, "CALL 0x210"), (0xF265#16, "LD V2, [I]"), (0x1208#16, "JP 0x208"),
    (0xFA33#16, "LD B, VA"), (0x00EE#16, "RET")] = true := by decide
theorem test_assembly_L3_second : writtenAs [
    (0x00E0#16, "CLS"), (0x6000#16, "LD V0, 0x00"), (0xF029#16, "LD F, V0"), (0x613E#16, "LD V1, 0x3E"),
    (0x621E#16, "LD V2, 0x1E"), (0xD125#16, "DRW V1, V2, 5"), (0x83F0#16, "LD V3, VF"), (0x1210#16, "JP 0x210"),
    (0xF00A#16, "LD V0, K"), (0xF015#16, "LD DT, V0"), (0xF107#16, "LD V1, DT"), (0x1206#16, "JP 0x206"),
    (0x2200#16, "CALL 0x200"), (0x6F09#16, "LD VF, 0x09")] = true := by decide
-- 30_encoding section 5: the optional Vy; V0 is the only register of JP; no pseudo-instruction; 00E0 is CLS, never SYS.
theorem test_assembly_optional_Vy : assemble ⟨.shr, [.reg 0x3]⟩ = some (.shrVx 0x3 0x0) ∧
    assemble ⟨.shl, [.reg 0x3, .reg 0x7]⟩ = some (.shlVx 0x3 0x7) := by decide
theorem test_assembly_refuses : assemble ⟨.jp, [.reg 0x1, .addr 0x300]⟩ = none ∧ assemble ⟨.sys, [.addr 0x0E0]⟩ = none ∧
    assemble ⟨.sub, [.reg 0x1, .byte 0x01]⟩ = none := by decide

/-! ## One step: 95_test_vectors L2, at most two per instruction -/

-- "Fetch": the last word of memory; the range before the alignment; an odd PC; J4's landing place.
theorem test_fetch_last_word : after { State.reset with pc := 0xFFE } 0x6A01 (fun t => (t.getV 0xA, t.pc)) = some (0x01, 0x1000) := by decide
theorem test_fetch_out_of_range : ofFault (step { State.reset with pc := 0x1000 }) = some (.addressOutOfRange 0x1000 .fetch 0x1000) ∧
    ofFault (step { State.reset with pc := 0xFFF }) = some (.addressOutOfRange 0x1000 .fetch 0xFFF) ∧
    ofFault (step { State.reset with pc := 0x10FE }) = some (.addressOutOfRange 0x10FE .fetch 0x10FE) := by decide
theorem test_fetch_odd : ofFault (step { State.reset with pc := 0x201 }) = some (.misalignedPc 0x201) := by decide
-- S9: an UNKNOWN word is reported and passed over.
theorem test_unknown : after State.reset 0xFFFF (fun t => (t.report, t.pc, t.opcode)) = some (.unknownOpcode 0xFFFF, 0x202, 0xFFFF) := by decide

-- "Control flow and stack": J6, J1, J3, J4, ST1 to ST4.
theorem test_sys : after { State.reset with pc := 0x300 } 0x0123 (fun t => (t.pc, t.report)) = some (0x302, .ok) := by decide
theorem test_jp : after State.reset 0x1234 (fun t => t.pc) = some 0x234 := by decide
theorem test_jpV0_uses_V0 : after (regs [(0, 0x04), (3, 0x10)]) 0xB300 (fun t => t.pc) = some 0x304 := by decide
theorem test_jpV0_not_wrapped : after (regs [(0, 0xFF)]) 0xBFFF (fun t => t.pc) = some 0x10FE := by decide
theorem test_call : after { State.reset with pc := 0x204 } 0x2210 (fun t => (t.stack, t.pc)) = some ([0x204], 0x210) := by decide
theorem test_call_overflow : fails { State.reset with stack := entries 16 } 0x2300 = some (.stackOverflow 0x200) := by decide
theorem test_ret :
    after { State.reset with pc := 0x212, stack := [0x204] } 0x00EE
      (fun t => (t.stack, t.pc)) =
    some ([], 0x206) := by decide
theorem test_ret_underflow : fails State.reset 0x00EE = some (.stackUnderflow 0x200) := by decide
-- "Skips", table SK.
theorem test_se_byte : after (regs [(1, 0xFF)]) 0x31FF (fun t => t.pc) = some 0x204 := by decide
theorem test_se_byte_not : after (regs [(1, 0x00)]) 0x31FF (fun t => t.pc) = some 0x202 := by decide
theorem test_sne_byte : after (regs [(1, 0x00)]) 0x41FF (fun t => t.pc) = some 0x204 := by decide
theorem test_sne_byte_not : after (regs [(1, 0x00)]) 0x4100 (fun t => t.pc) = some 0x202 := by decide
theorem test_se_reg : after (regs [(1, 0xFF), (2, 0xFF)]) 0x5120 (fun t => t.pc) = some 0x204 := by decide
theorem test_se_reg_not : after (regs [(1, 0x00), (2, 0xFF)]) 0x5120 (fun t => t.pc) = some 0x202 := by decide
theorem test_sne_reg : after (regs [(1, 0x00), (2, 0xFF)]) 0x9120 (fun t => t.pc) = some 0x204 := by decide
theorem test_sne_reg_not : after (regs [(1, 0x07)]) 0x9110 (fun t => t.pc) = some 0x202 := by decide
theorem test_skp_low_nibble : after { regs [(2, 0x15)] with keys := 0x0020 } 0xE29E (fun t => t.pc) = some 0x204 := by decide
theorem test_skp_up : after { regs [(2, 0x05)] with keys := 0xFFDF } 0xE29E (fun t => t.pc) = some 0x202 := by decide
theorem test_sknp_up : after { regs [(2, 0x05)] with keys := 0xFFDF } 0xE2A1 (fun t => t.pc) = some 0x204 := by decide
theorem test_sknp_down : after { regs [(2, 0x05)] with keys := 0x0020 } 0xE2A1 (fun t => t.pc) = some 0x202 := by decide
-- "Loads and constant add".
theorem test_ld_byte : after State.reset 0x6A05 (fun t => t.getV 0xA) = some 0x05 := by decide
theorem test_ld_byte_vF : after (regs [(0xF, 0x07)]) 0x6F00 (fun t => t.getV 0xF) = some 0x00 := by decide
theorem test_add_byte_no_carry_flag :
    after (regs [(0, 0x05), (0xF, 0x01)]) 0x70FF
      (fun t => (t.getV 0, t.getV 0xF)) =
    some (0x04, 0x01) := by decide
theorem test_add_byte_vF : after (regs [(0xF, 0x10)]) 0x7F01 (fun t => t.getV 0xF) = some 0x11 := by decide
-- "Register-register operations".
theorem test_ld_reg : after (regs [(1, 0x3C)]) 0x8010 (fun t => (t.getV 0, t.getV 1)) = some (0x3C, 0x3C) := by decide
theorem test_or : after (regs [(0, 0xF0), (1, 0x0F), (0xF, 0x09)]) 0x8011 (fun t => (t.getV 0, t.getV 0xF)) = some (0xFF, 0x09) := by decide
theorem test_and :
    after (regs [(0, 0xF0), (1, 0x3C), (0xF, 0x09)]) 0x8012
      (fun t => (t.getV 0, t.getV 0xF)) =
    some (0x30, 0x09) := by decide
theorem test_xor :
    after (regs [(0, 0xFF), (1, 0x0F), (0xF, 0x09)]) 0x8013
      (fun t => (t.getV 0, t.getV 0xF)) =
    some (0xF0, 0x09) := by decide
theorem test_add_Y_is_vF : after (regs [(0, 0xF0), (0xF, 0x20)]) 0x80F4 (fun t => (t.getV 0, t.getV 0xF)) = some (0x10, 1) := by decide
theorem test_add_X_is_vF : after (regs [(0xF, 0xF0), (1, 0x20)]) 0x8F14 (fun t => t.getV 0xF) = some 0x10 := by decide
theorem test_sub_borrow : after (regs [(0, 0x03), (1, 0x05)]) 0x8015 (fun t => (t.getV 0, t.getV 0xF)) = some (0xFE, 0) := by decide
theorem test_sub_equal : after (regs [(0, 0x07), (1, 0x07)]) 0x8015 (fun t => (t.getV 0, t.getV 0xF)) = some (0x00, 1) := by decide
theorem test_shr_Y_ignored :
    after (regs [(0, 0x05), (1, 0xFF)]) 0x8016
      (fun t => (t.getV 0, t.getV 0xF, t.getV 1)) =
    some (0x02, 1, 0xFF) := by decide
theorem test_shr_X_is_vF : after (regs [(0xF, 0x02)]) 0x8F06 (fun t => t.getV 0xF) = some 0x01 := by decide
theorem test_subn : after (regs [(0, 0x03), (1, 0x05)]) 0x8017 (fun t => (t.getV 0, t.getV 0xF)) = some (0x02, 1) := by decide
theorem test_subn_borrow : after (regs [(0, 0x05), (1, 0x03)]) 0x8017 (fun t => (t.getV 0, t.getV 0xF)) = some (0xFE, 0) := by decide
theorem test_shl_Y_ignored : after (regs [(0, 0x80), (1, 0x01)]) 0x801E (fun t => (t.getV 0, t.getV 0xF)) = some (0x00, 1) := by decide
theorem test_shl_X_is_vF : after (regs [(0xF, 0x81)]) 0x8F0E (fun t => t.getV 0xF) = some 0x02 := by decide
-- "Random": the draw 0xAB; with NN = 0 every draw, the free one too, gives 0.
theorem test_rnd :
    after { State.reset with rngQueue := [0xAB, 0x11] } 0xC30F
      (fun t => (t.getV 3, t.rngQueue, t.rngDraws)) =
    some (0x0B, [0x11], 1) := by decide
theorem test_rnd_free : after State.reset 0xC300 (fun t => t.getV 3) = some 0x00 := by
  show some (Config.randomByte 0 &&& 0x00#8) = _
  simp
-- "Index register and memory".
theorem test_ld_I : after State.reset 0xA2F0 (fun t => t.i) = some 0x2F0 := by decide
theorem test_add_I_wraps :
    after { regs [(4, 0x02), (0xF, 0x09)] with i := 0xFFFF } 0xF41E
      (fun t => (t.i, t.getV 0xF)) =
    some (0x0001, 0x09) := by decide
theorem test_add_I_past_memory : after { regs [(4, 0x01)] with i := 0xFFF } 0xF41E (fun t => t.i) = some 0x1000 := by decide
theorem test_ld_F : after (regs [(0, 0x0A)]) 0xF029 (fun t => t.i) = some 0x032 := by decide
theorem test_ld_F_low_nibble : after (regs [(0, 0x1F)]) 0xF029 (fun t => t.i) = some 0x04B := by decide
theorem test_ld_B :
    after { regs [(5, 0xFF)] with i := 0xFFD } 0xF533
      (fun t => [0xFFC, 0xFFD, 0xFFE, 0xFFF].map (Memory.read t.mem)) =
    some [0, 2, 5, 5] := by decide
theorem test_ld_B_out_of_range : fails { regs [(5, 0xFF)] with i := 0xFFE } 0xF533 = some (.addressOutOfRange 0x1000 .write 0x200) := by decide
theorem test_store_regs :
    after (switchOn { regs [(0, 0x11), (1, 0x22), (2, 0x33), (3, 0x44), (4, 0x55)] with i := 0x2F0 }) 0xF355
      (fun t => ([0x2EF, 0x2F0, 0x2F1, 0x2F2, 0x2F3, 0x2F4].map (Memory.read t.mem), t.i)) =
    some ([0, 0x11, 0x22, 0x33, 0x44, 0], 0x2F4) := by decide
theorem test_store_regs_out_of_range : fails (switchOn { State.reset with i := 0x1005 }) 0xF055 = some (.addressOutOfRange 0x1005 .write 0x200) := by decide
theorem test_load_regs :
    after (poked { regs [(3, 0x99)] with i := 0x300 } [(0x300, 1), (0x301, 2), (0x302, 3), (0x303, 4)]) 0xF265
      (fun t => ([t.getV 0, t.getV 1, t.getV 2, t.getV 3], t.i)) =
    some ([1, 2, 3, 0x99], 0x300) := by decide
theorem test_load_regs_out_of_range : fails { State.reset with i := 0xFF1 } 0xFF65 = some (.addressOutOfRange 0x1000 .read 0x200) := by decide
-- "Display".
theorem test_cls :
    after { State.reset with fb := Vector.replicate 32 (Vector.replicate 64 true) } 0x00E0
      (fun t => (decide (t.fb = State.reset.fb))) =
    some true := by decide
theorem test_drw_wraps :
    after (poked { regs [(0, 0x3F), (1, 0x1F)] with i := 0x300 } [(0x300, 0x01)]) 0xD011
      (fun t => (Frame.get t.fb 6 31, Frame.get t.fb 5 31, t.getV 0xF)) =
    some (true, false, 0) := by decide
theorem test_drw_collision :
    after (poked { State.reset with i := 0x300, fb := (Frame.setXor State.reset.fb 0 0).1 } [(0x300, 0x80)]) 0xD011
      (fun t => (Frame.get t.fb 0 0, t.getV 0xF)) =
    some (false, 1) := by decide
-- "Timers and keys".
theorem test_ld_DT : after { State.reset with dt := 0x3C } 0xF307 (fun t => (t.getV 3, t.dt)) = some (0x3C, 0x3C) := by decide
theorem test_ld_K : after { State.reset with keys := 0x0480 } 0xF00A (fun t => (t.getV 0, t.pc)) = some (0x07, 0x202) := by decide
theorem test_ld_K_waits : after (regs [(0, 0x55)]) 0xF00A (fun t => (t.getV 0, t.pc, t.report)) = some (0x55, 0x200, .waitKey) := by decide
theorem test_set_DT : after (regs [(2, 0x05)]) 0xF215 (fun t => t.dt) = some 0x05 := by decide
theorem test_set_ST : after (regs [(2, 0x03)]) 0xF218 (fun t => t.st) = some 0x03 := by decide

/-! ## Host transactions: 95_test_vectors table T and "Load and reset" -/

theorem test_tick_tone : ofNext (fun t => (t.dt, t.st, t.report)) (step { State.reset with dt := 5, st := 1, pending := [.tick] }) =
    some (4, 0, .tone true) := by decide
theorem test_tick_floor : ofNext (fun t => (t.dt, t.st, t.report)) (step { State.reset with st := 2, pending := [.tick] }) =
    some (0, 1, .tone false) := by decide
-- LD3: a load of 12 00.
theorem test_load : ofNext (fun t => (t.report, [0x1FF, 0x200, 0x201, 0x202].map (Memory.read t.mem), t.pc))
    (step { State.reset with pc := 0x300, pending := [.load [0x12, 0x00]] }) = some (.loadOk, [0, 0x12, 0, 0], 0x200) := by decide
-- LD5: the FONT after reset.
theorem test_reset_font : ofNext (fun t => [0, 1, 2, 3, 4, 0x4B, 0x4C, 0x4D, 0x4E, 0x4F, 0x50].map (Memory.read t.mem))
    (step { poked State.reset [(0, 0x77)] with pending := [.reset] }) =
    some [0xF0, 0x90, 0x90, 0x90, 0xF0, 0xF0, 0x80, 0xF0, 0x80, 0x80, 0] := by decide
-- The host's reset of a state with the default FONT, nothing planned and the model's own choices is State.reset.
theorem test_reset_of_reset : resetCore State.reset = State.reset := by decide
-- Data that is no snapshot is refused (log 10).
theorem test_restore_refuses : step { State.reset with pending := [.restore { State.reset.snapshot with stack := entries 17 }] } =
    .refused .illFormedSnapshot := by rfl

/-! ## Memory's canonical form (log 4) -/

theorem test_write_keeps_form : Memory.write (Memory.write [] 0x300 0x01) 0x2FF 0x02 = [(0x2FF, 0x02), (0x300, 0x01)] ∧
    Memory.write [(0x2FF, 0x02), (0x300, 0x01)] 0x300 0x00 = [(0x2FF, 0x02)] ∧ Memory.write [] 0x000 0xF0 = [] := by decide
theorem test_wf_memory : Memory.wf [(0x2FF, 0x02), (0x300, 0x01)] ∧ ¬ Memory.wf [(0x300, 0x01), (0x2FF, 0x02)] ∧
    ¬ Memory.wf [(0x300, 0x00)] ∧ ¬ Memory.wf [(0x1000, 0x01)] := by decide

/-! ## Witnesses: a state and operands that meet the hypotheses of each statement -/

theorem test_witness_DecodeOfEncodeIsTheInstruction :
    (Instr.sys 0x0E1).wf = true ∧ (Instr.drw 0xF 0xF 0xF).wf = true :=
  by decide
theorem test_witness_EncodeOfDecodeIsTheWord :
    decode 0xFF65#16 = .instr (.ldVxMem 0xF) :=
  by decide
theorem test_witness_UnknownWordsAreExactlyTheListed :
    decode 0x5FFF#16 = .unknown 0x5FFF#16 ∧ decode 0x800F#16 = .unknown 0x800F#16 ∧
    decode 0x9001#16 = .unknown 0x9001#16 ∧ decode 0xE000#16 = .unknown 0xE000#16 ∧ decode 0xF0FF#16 = .unknown 0xF0FF#16 :=
  by decide

/-- 6A 01 in the last two bytes of memory, PC there. -/
def lastWord : State := poked { State.reset with pc := 0xFFE } [(0xFFE, 0x6A), (0xFFF, 0x01)]

theorem test_witness_StepRunsTheDecodedInstruction :
    lastWord.nextAction = .step ∧ lastWord.pc.toNat % 2 = 0 ∧ lastWord.pc.toNat ≤ 0xFFE ∧
    (0x6A01#16).toNat = 256 * (Memory.read lastWord.mem lastWord.pc.toNat).toNat + (Memory.read lastWord.mem (lastWord.pc.toNat + 1)).toNat ∧
    decode 0x6A01#16 = .instr (.ldVxNn 0xA 0x01) :=
  by decide

/-- FF FF at 0x200. -/
def unknownAt200 : State := poked State.reset [(0x200, 0xFF), (0x201, 0xFF)]

theorem test_witness_UnknownWordIsReportedAndSkipped :
    unknownAt200.nextAction = .step ∧ unknownAt200.pc.toNat % 2 = 0 ∧ unknownAt200.pc.toNat ≤ 0xFFE ∧
    (0xFFFF#16).toNat = 256 * (Memory.read unknownAt200.mem unknownAt200.pc.toNat).toNat +
      (Memory.read unknownAt200.mem (unknownAt200.pc.toNat + 1)).toNat ∧ decode 0xFFFF#16 = .unknown 0xFFFF#16 :=
  by decide
theorem test_witness_FetchChecksRangeThenAlignment :
    State.reset.nextAction = .step ∧
    0xFFE < ({ State.reset with pc := 0xFFF } : State).pc.toNat ∧
    (({ State.reset with pc := 0xFFD } : State).pc.toNat ≤ 0xFFE ∧ ({ State.reset with pc := 0xFFD } : State).pc.toNat % 2 = 1) :=
  by decide

/-- 2300 at 0x200 with 16 entries on the stack (ST3). -/
def fullCall : State := poked { State.reset with stack := entries 16 } [(0x200, 0x23)]

theorem test_witness_FatalOutcomeLeavesTheStateAndRecurs :
    fullCall.nextAction = .step ∧ ofFault (step fullCall) = some (.stackOverflow 0x200) ∧
    (afterFatal (.stackOverflow 0x200) fullCall).nextAction = .step ∧ (afterFatal (.stackOverflow 0x200) fullCall).opcode = 0x2300 ∧
    ofFault (step { State.reset with pc := 0x201 }) = some (.misalignedPc 0x201) :=
  by decide
theorem test_witness_InstructionsFailExactlyAsListed :
    ofFault (exec (.call 0x300) fullCall) = some (.stackOverflow 0x200) ∧
    ofFault (exec (.ret 0) State.reset) = some (.stackUnderflow 0x200) ∧
    ofFault (exec (.drw 0 0 3) { State.reset with i := 0xFFE }) = some (.addressOutOfRange 0x1000 .read 0x200) ∧
    ofFault (exec (.ldBVx 0) { State.reset with i := 0xFFE }) = some (.addressOutOfRange 0x1000 .write 0x200) ∧
    ofFault (exec (.ldMemVx 3) { State.reset with i := 0xFFD }) = some (.addressOutOfRange 0x1000 .write 0x200) ∧
    ofFault (exec (.ldVxMem 0xF) { State.reset with i := 0xFFFF }) = some (.addressOutOfRange 0xFFFF .read 0x200) :=
  by decide
theorem test_witness_CallPushesItsOwnAddress :
    ({ State.reset with stack := entries 15 } : State).stack.length < 16 ∧ fullCall.stack.length = 16 :=
  by decide
theorem test_witness_RetResumesAfterTheCall :
    ({ State.reset with stack := [0x204] } : State).stack = 0x204 :: [] ∧ State.reset.stack = [] :=
  by decide
theorem test_witness_NestedCallsUnwind :
    List.replicate 16 0x210#12 ≠ [] ∧ State.reset.stack.length + (List.replicate 16 0x210#12).length ≤ 16 :=
  by decide
theorem test_witness_AddByteWrapsWithoutFlag :
    (0xE : Reg) ≠ vF :=
  by decide
theorem test_witness_AddReportsTheCarry :
    (0x0 : Reg) ≠ vF :=
  by decide
theorem test_witness_SubtractionsReportNoBorrow :
    (0x0 : Reg) ≠ vF :=
  by decide
theorem test_witness_ShiftsReportTheBitShiftedOut :
    (0xE : Reg) ≠ vF :=
  by decide
theorem test_witness_RandomByteIsMasked :
    ({ State.reset with rngQueue := [0xAB] } : State).rngQueue = 0xAB :: [] ∧ State.reset.rngQueue = [] :=
  by decide
theorem test_witness_OnlyRndReadsTheRandomSource :
    ∀ x nn, Instr.ldVxK 0x0 ≠ .rnd x nn :=
  by intro x nn h; cases h
theorem test_witness_DecimalDigitsAreStored :
    Memory.wf State.reset.mem ∧ ({ State.reset with i := 0xFFD } : State).i.toNat + 2 ≤ 0xFFF ∧
    0xFFF < ({ State.reset with i := 0xFFE } : State).i.toNat + 2 :=
  by decide
theorem test_witness_RegistersAreStored :
    Memory.wf lastWord.mem ∧ ({ lastWord with i := 0xFFD } : State).i.toNat + (0x2 : Reg).toNat ≤ 0xFFF ∧
    0xFFF < ({ lastWord with i := 0xFFD } : State).i.toNat + (0x3 : Reg).toNat :=
  by decide
theorem test_witness_RegistersAreLoaded :
    ({ State.reset with i := 0xFF0 } : State).i.toNat + (0xF : Reg).toNat ≤ 0xFFF ∧
    0xFFF < ({ State.reset with i := 0xFF1 } : State).i.toNat + (0xF : Reg).toNat :=
  by decide

/-- V0 = 0x6A, V1 = 0x05 to be stored at 0x202, the switch set. -/
def storing : State := switchOn { regs [(0, 0x6A), (1, 0x05)] with i := 0x202 }

/-- The state after FX55 with X = 1. -/
def stored : State := nextState State.reset (exec (.ldMemVx 0x1) storing)

theorem test_witness_StoredRegistersLoadBack :
    Memory.wf storing.mem ∧ exec (.ldMemVx 0x1) storing = .next stored ∧
    ({ stored with i := 0x202, pc := 0x300 } : State).mem = stored.mem ∧ ({ stored with i := 0x202, pc := 0x300 } : State).i = storing.i :=
  ⟨by decide, rfl, rfl, rfl⟩
theorem test_witness_FetchSeesTheStore :
    Memory.wf storing.mem ∧ exec (.ldMemVx 0x1) storing = .next stored ∧
    (0x0 : Reg).toNat + 1 = (0x1 : Reg).toNat ∧ (0x1 : Reg).toNat ≤ (0x1 : Reg).toNat ∧
    stored.pc.toNat = storing.i.toNat + (0x0 : Reg).toNat ∧ stored.pc.toNat % 2 = 0 :=
  ⟨by decide, rfl, by decide, by decide, by decide, by decide⟩
theorem test_witness_DrawXorsTheSpriteAndReportsCollision :
    ((0x0 : Nibble).toNat = 0 ∨ 0xFFFF + (0x0 : Nibble).toNat - 1 ≤ 0xFFF) ∧
    ((0x2 : Nibble).toNat = 0 ∨ ({ State.reset with i := 0xFFE } : State).i.toNat + (0x2 : Nibble).toNat - 1 ≤ 0xFFF) ∧
    ¬ ((0x3 : Nibble).toNat = 0 ∨ ({ State.reset with i := 0xFFE } : State).i.toNat + (0x3 : Nibble).toNat - 1 ≤ 0xFFF) :=
  by decide

/-- The glyph 0 of the FONT drawn once at (0, 0). -/
def drawnOnce : State := nextState State.reset (exec (.drw 0x0 0x0 0x5) State.reset)

theorem test_witness_DrawingTwiceRestoresTheScreen :
    exec (.drw 0x0 0x0 0x5) State.reset = .next drawnOnce ∧ drawnOnce.mem = State.reset.mem ∧ drawnOnce.i = State.reset.i ∧
    drawnOnce.getV 0x0 = State.reset.getV 0x0 ∧ Frame.get drawnOnce.fb 0 0 = true :=
  ⟨rfl, rfl, rfl, rfl, by decide⟩
theorem test_witness_KeyWaitStoresTheLowestKey :
    ∃ k, k < 16 ∧ ({ State.reset with keys := 0x8000 } : State).keys.getLsbD k = true :=
  ⟨15, by decide⟩

/-- F50A at 0x200, no key down. -/
def waiting : State := poked State.reset [(0x200, 0xF5), (0x201, 0x0A)]

theorem test_witness_KeyWaitRetriesTheSameStep :
    waiting.nextAction = .step ∧ waiting.pc.toNat % 2 = 0 ∧ waiting.pc.toNat ≤ 0xFFE ∧
    (0xF50A#16).toNat = 256 * (Memory.read waiting.mem waiting.pc.toNat).toNat + (Memory.read waiting.mem (waiting.pc.toNat + 1)).toNat ∧
    decode 0xF50A#16 = .instr (.ldVxK 0x5) ∧ waiting.keys = 0 ∧ (nextState State.reset (step waiting)).nextAction = .step :=
  by decide
theorem test_witness_TickDecrementsBothTimers :
    ({ State.reset with pending := [.tick] } : State).nextAction = .tick :=
  by decide
theorem test_witness_ToneIsDueOnceOnTheVthTick :
    1 ≤ 1 ∧ (ticks 1 { State.reset with st := 1 }).report = .tone true ∧ (ticks 2 { State.reset with st := 1 }).report = .tone false :=
  by decide
theorem test_witness_HostResetRestoresTheArchitecturalState :
    ({ State.reset with pending := [.reset, .step] } : State).nextAction = .reset :=
  by decide
theorem test_witness_LoadCopiesTheRomOrRejectsIt :
    ({ State.reset with pending := [.load (List.replicate 3584 0)] } : State).nextAction = .load (List.replicate 3584 0) ∧
    (List.replicate 3584 (0 : Byte)).length ≤ 3584 ∧
    ({ State.reset with pending := [.load (List.replicate 3585 0)] } : State).nextAction = .load (List.replicate 3585 0) ∧
    3584 < (List.replicate 3585 (0 : Byte)).length :=
  ⟨rfl, by rw [List.length_replicate], rfl, by rw [List.length_replicate]; omega⟩
theorem test_witness_SnapshotsRoundTrip :
    ({ State.reset with pending := [.save] } : State).nextAction = .save ∧ lastWord.Inv ∧
    ({ State.reset with pending := [.restore lastWord.snapshot] } : State).nextAction = .restore lastWord.snapshot :=
  ⟨rfl, by decide, rfl⟩
theorem test_witness_EveryStepKeepsTheInvariant :
    lastWord.Inv ∧ step lastWord = .next (nextState State.reset (step lastWord)) :=
  ⟨by decide, rfl⟩
theorem test_witness_EveryStepKeepsAddressesReachable : lastWord.PcInv ∧ step lastWord = .next (nextState State.reset (step lastWord)) := by
  have none_planned : lastWord.pending = [] := by decide
  have none_called : lastWord.stack = [] := by decide
  refine ⟨⟨⟨by decide, ?_⟩, ?_⟩, test_witness_EveryStepKeepsTheInvariant.2⟩
  · rw [none_called]
    exact fun a h => absurd h List.not_mem_nil
  · rw [none_planned]
    exact fun snap h => absurd h List.not_mem_nil
theorem test_witness_EveryInstructionKeepsItsFrame :
    exec (.ldMemVx 0x1) storing = .next stored :=
  rfl

/-- The next state of an instruction, where it has one. -/
def result (i : Instr) (s : State) : State := nextState s (exec i s)

theorem test_witness_ProgramCounterMovesByRule :
    (exec (.ldMemVx 0x1) storing = .next stored ∧ (Instr.ldMemVx 0x1).endsWithNext = true ∧ ∀ x, Instr.ldMemVx 0x1 = .ldVxK x → storing.keys ≠ 0) ∧
    (exec (.ldVxK 0x5) { waiting with keys := 0x8000 } = .next (result (.ldVxK 0x5) { waiting with keys := 0x8000 }) ∧
      (Instr.ldVxK 0x5).endsWithNext = true ∧ ({ waiting with keys := 0x8000 } : State).keys ≠ 0) ∧
    (exec (.ldVxK 0x5) waiting = .next (result (.ldVxK 0x5) waiting) ∧ waiting.keys = 0) ∧
    (exec (.skp 0x0) waiting = .next (result (.skp 0x0) waiting) ∧ (Instr.skp 0x0).isSkip = true ∧ (Instr.skp 0x0).skipTaken waiting = false) ∧
    (exec (.sknp 0x0) waiting = .next (result (.sknp 0x0) waiting) ∧ (Instr.sknp 0x0).isSkip = true ∧ (Instr.sknp 0x0).skipTaken waiting = true) ∧
    exec (.jp 0xFFF) waiting = .next (result (.jp 0xFFF) waiting) ∧ exec (.call 0xFFF) waiting = .next (result (.call 0xFFF) waiting) ∧
    exec (.jpV0 0xFFF) waiting = .next (result (.jpV0 0xFFF) waiting) ∧
    exec (.ret 0x0) { waiting with stack := [0x204] } = .next (result (.ret 0x0) { waiting with stack := [0x204] }) :=
  ⟨⟨rfl, rfl, nofun⟩, ⟨rfl, rfl, by decide⟩, ⟨rfl, by decide⟩, ⟨rfl, rfl, by decide⟩, ⟨rfl, rfl, by decide⟩, rfl, rfl, rfl, rfl⟩
theorem test_witness_OnlyCallPushesAndOnlyRetPops :
    State.reset.stack.length ≤ 16 ∧ fullCall.stack.length = 16 ∧ State.reset.stack = [] ∧
    exec (.call 0x210) { State.reset with stack := entries 15 } =
      .next (nextState State.reset (exec (.call 0x210) { State.reset with stack := entries 15 })) :=
  ⟨by decide, by decide, rfl, rfl⟩
theorem test_witness_OnlyTheirInstructionsReachTheDevices :
    (Instr.skp 0x0).reachesScreen = false ∧ (Instr.drw 0x0 0x0 0x1).readsKeys = false ∧
    exec (.ldMemVx 0x1) storing = .next stored :=
  ⟨rfl, rfl, rfl⟩
theorem test_witness_NoInstructionReadsLatchOrSoundTimer :
    (∀ x, Instr.ldDtVx 0x0 ≠ .ldStVx x) ∧ Instr.ldStVx 0x3 = .ldStVx 0x3 :=
  ⟨nofun, rfl⟩
theorem test_witness_NoTransactionChangesTheArguments :
    step lastWord = .next (nextState State.reset (step lastWord)) :=
  test_witness_EveryStepKeepsTheInvariant.2

/-- 1204 at 0x204, PC there: a halt loop. -/
def halted : State := poked { State.reset with pc := 0x204 } [(0x204, 0x12), (0x205, 0x04)]

theorem test_witness_HaltLoopIsAFixedPoint :
    halted.finishedAt 0x204 ∧ halted.nextAction = .step :=
  ⟨⟨by decide, by decide, by decide⟩, rfl⟩
theorem test_witness_AssemblyLinesAreTheInstructions :
    (Instr.drw 0x1 0x2 0x5).wf = true ∧ (∀ z, Instr.drw 0x1 0x2 0x5 = .cls z ∨ Instr.drw 0x1 0x2 0x5 = .ret z → z = 0x0) ∧
    (∀ z, Instr.cls 0x0 = .cls z ∨ Instr.cls 0x0 = .ret z → z = 0x0) ∧ assemble ⟨.shr, [.reg 0x3]⟩ = some (.shrVx 0x3 0x0) :=
  ⟨by decide, by simp, by simp, by decide⟩
theorem test_witness_ShiftVyOnlyFillsTheYField :
    (Mnemonic.shr = .shr ∨ Mnemonic.shr = .shl) ∧ (Mnemonic.shl = .shr ∨ Mnemonic.shl = .shl) :=
  by decide

/-! ## The host's questions -/

theorem test_withFetchWord_runs_first : ofNext (fun t => (t.getV 0xA, t.opcode)) (step (State.reset.withFetchWord 16 0x6A05)) =
    some (0x05, 0x6A05) := by decide

end Sys2Proof.Tests
end

section
/-! The call stack over one instruction (10_state R26): which stack an answer can hold, from the shared operations up to `exec`, and the obligation
that rests on it. -/

namespace Sys2Proof.Machine

/-- Every next state that `r` can answer holds the call stack `k`; a fatal outcome has no next state. -/
def NextStack (k : List Word) (r : Result) : Prop := ∀ t, r = .next t → t.stack = k

/-! ## The shared operations -/

theorem nextStack_next {k : List Word} {u : State} (h : u.stack = k) : NextStack k (.next u) := by
  rintro t ⟨⟩
  exact h

theorem nextStack_advance {k : List Word} {u : State} (h : u.stack = k) : NextStack k (advance u) := nextStack_next h

theorem nextStack_jumpTo {k : List Word} {u : State} {target : Word} (h : u.stack = k) : NextStack k (jumpTo target u) := nextStack_next h

theorem nextStack_skipIf {c : Bool} {s : State} : NextStack s.stack (skipIf c s) := nextStack_next rfl

theorem nextStack_retryStep {s : State} : NextStack s.stack (retryStep s) := nextStack_next rfl

theorem nextStack_withAccess {k : List Word} {s : State} {a : Word} {n : Nat} {kind : AccessKind} {r : Result} (h : NextStack k r) :
    NextStack k (withAccess s a n kind r) :=
  fun t answered => h t (withAccess_next answered).2

theorem loadRegs_stack (s : State) (x : Reg) : (loadRegs s x).stack = s.stack := by rw [loadRegs_eq]

/-! ## The instructions -/

/-- FX0A keeps the stack both when it stores a key and when it waits. -/
theorem nextStack_execLdVxK (x : Reg) (s : State) : NextStack s.stack (execLdVxK x s) := by
  unfold execLdVxK
  split
  · exact nextStack_advance rfl
  · exact nextStack_retryStep

/-- An instruction whose entry in the table of writes does not name the call stack leaves it alone. -/
theorem exec_keeps_stack {i : Instr} (s : State) (unnamed : i.changes.stack = false) : NextStack s.stack (exec i s) := by
  cases i with
  | call _ | ret _ => simp [Instr.changes] at unnamed
  | jp _ | jpV0 _ => exact nextStack_jumpTo rfl
  | seVxNn _ _ | sneVxNn _ _ | seVxVy _ _ | sneVxVy _ _ | skp _ | sknp _ => exact nextStack_skipIf
  | drw _ _ _ | ldBVx _ | ldMemVx _ => exact nextStack_withAccess (nextStack_advance rfl)
  | ldVxMem x => exact nextStack_withAccess (nextStack_advance (loadRegs_stack s x))
  | ldVxK x => exact nextStack_execLdVxK x s
  | _ => exact nextStack_advance rfl

/-- A CALL that completes found fewer than 16 entries and pushed its own address. -/
theorem exec_call_stack {nnn : Addr} {s t : State} (h : exec (.call nnn) s = .next t) :
    s.stack.length < 16 ∧ t.stack = s.pc :: s.stack := by
  obtain ⟨room, jumped⟩ := pushStack_next h
  exact ⟨room, nextStack_jumpTo rfl t jumped⟩

/-- A RET that completes removed the most recent entry. -/
theorem exec_ret_stack {z : Nibble} {s t : State} (h : exec (.ret z) s = .next t) : ∃ a, s.stack = a :: t.stack := by
  obtain ⟨a, below, held, jumped⟩ := popStack_next h
  have left : t.stack = below := nextStack_jumpTo rfl t jumped
  exact ⟨a, left ▸ held⟩

/-- The stack rule of 10_state R26 as an inversion: what an instruction that completes has done to the stack, and which instruction it was. -/
theorem exec_stack_cases {i : Instr} {s t : State} (h : exec i s = .next t) :
    (t.stack = s.stack ∧ (∀ nnn, i ≠ .call nnn) ∧ ∀ z, i ≠ .ret z) ∨
    (∃ nnn, i = .call nnn ∧ s.stack.length < 16 ∧ t.stack = s.pc :: s.stack) ∨
    (∃ z a, i = .ret z ∧ s.stack = a :: t.stack) := by
  cases i with
  | call nnn => exact .inr (.inl ⟨nnn, rfl, exec_call_stack h⟩)
  | ret z =>
    obtain ⟨a, popped⟩ := exec_ret_stack h
    exact .inr (.inr ⟨z, a, rfl, popped⟩)
  | _ => exact .inl ⟨exec_keeps_stack s rfl t h, nofun, nofun⟩

/-- One instruction takes a stack of at most 16 entries to one of at most 16. -/
theorem exec_stack_length_le {i : Instr} {s t : State} (hs : s.stack.length ≤ 16) (h : exec i s = .next t) : t.stack.length ≤ 16 := by
  obtain ⟨kept, -, -⟩ | ⟨-, -, room, pushed⟩ | ⟨-, a, -, popped⟩ := exec_stack_cases h
  · rwa [kept]
  · rw [pushed, List.length_cons]
    omega
  · rw [popped, List.length_cons] at hs
    omega

theorem exec_call_full {s : State} (nnn : Addr) (h : s.stack.length = 16) : exec (.call nnn) s = .fault (.stackOverflow s.pc) :=
  pushStack_full h.not_lt

theorem exec_ret_empty {s : State} (z : Nibble) (h : s.stack = []) : exec (.ret z) s = .fault (.stackUnderflow s.pc) :=
  popStack_nil h

/-- Settles O50: the inversion of an instruction's stack effect, the depth bound it gives, and the two fatal outcomes at the ends of the stack. -/
theorem onlyCallPushesAndOnlyRetPops : Obligations.OnlyCallPushesAndOnlyRetPops := by
  intro i s hs
  refine ⟨fun t h => ⟨exec_stack_length_le hs h, exec_stack_cases h⟩, ?_, ?_⟩
  · rintro nnn rfl full
    exact exec_call_full nnn full
  · rintro z rfl empty
    exact exec_ret_empty z empty

end Sys2Proof.Machine
end

section
/-! The two devices beside the machine, the frame buffer and the key state, are not in its memory (20_memory R63): how an answer depends on what they
hold, from the shared operations up to `exec`, and the obligation that rests on it. -/

namespace Sys2Proof.Machine

/-- The state with the frame buffer changed by `screen` and the key state by `keypad`; `id` leaves a device as it is, a constant function replaces it. -/
def State.mapDevices (screen : Frame → Frame) (keypad : BitVec 16 → BitVec 16) (s : State) : State :=
  { s with fb := screen s.fb, keys := keypad s.keys }

/-! ## A change of the state, before or after a shared operation -/

/-- A change that keeps the PC passes through the range check of an access if it passes through what follows the check. -/
theorem withAccess_mapNext {g : State → State} {s : State} {a : Word} {n : Nat} {kind : AccessKind} {r r' : Result} (pc : (g s).pc = s.pc)
    (rest : r' = mapNext g r) : withAccess (g s) a n kind r' = mapNext g (withAccess s a n kind r) := by
  by_cases ok : inRange a n
  · rw [withAccess_inRange ok, withAccess_inRange ok, rest]
  · rw [withAccess_outOfRange ok, withAccess_outOfRange ok, pc]
    rfl

/-- A change that keeps the PC and the stack passes through a push if it passes through what follows the push. -/
theorem pushStack_mapNext {g : State → State} {s : State} {w : Word} {rest : State → Result} (pc : (g s).pc = s.pc)
    (stack : (g s).stack = s.stack)
    (pushed : rest ((g s).setStack (w :: s.stack)) = mapNext g (rest (s.setStack (w :: s.stack)))) :
    pushStack w rest (g s) = mapNext g (pushStack w rest s) := by
  by_cases room : s.stack.length < Config.stackDepth
  · rw [pushStack_room room, pushStack_room (stack ▸ room), stack, pushed]
  · rw [pushStack_full room, pushStack_full (stack ▸ room), pc]
    rfl

/-- A change that keeps the PC and the stack passes through a pop if it passes through what follows the pop. -/
theorem popStack_mapNext {g : State → State} {s : State} {rest : Word → State → Result} (pc : (g s).pc = s.pc)
    (stack : (g s).stack = s.stack)
    (popped : ∀ a below, rest a ((g s).setStack below) = mapNext g (rest a (s.setStack below))) :
    popStack rest (g s) = mapNext g (popStack rest s) := by
  cases held : s.stack with
  | nil =>
    rw [popStack_nil held, popStack_nil (stack.trans held), pc]
    rfl
  | cons a below => rw [popStack_cons held, popStack_cons (stack.trans held), popped]

theorem loadRegs_mapDevices (screen : Frame → Frame) (keypad : BitVec 16 → BitVec 16) (s : State) (x : Reg) :
    loadRegs (s.mapDevices screen keypad) x = (loadRegs s x).mapDevices screen keypad :=
  List.foldl_hom (State.mapDevices screen keypad) fun _ _ => rfl

/-! ## The instructions -/

/-- FX0A reads the keypad, not the frame buffer. -/
theorem execLdVxK_mapDevices (screen : Frame → Frame) (x : Reg) (s : State) :
    execLdVxK x (s.mapDevices screen id) = mapNext (State.mapDevices screen id) (execLdVxK x s) := by
  have scan : firstKeyDown (s.mapDevices screen id) = firstKeyDown s := rfl
  unfold execLdVxK
  rw [scan]
  cases firstKeyDown s with
  | none => rfl
  | some k => rfl

/-- FX0A keeps the key state both when it stores a key and when it waits. -/
theorem execLdVxK_keeps_keys {x : Reg} {s t : State} (h : execLdVxK x s = .next t) : t.keys = s.keys := by
  unfold execLdVxK at h
  split at h
  · cases h
    rfl
  · cases h
    rfl

/-- A change of the devices that an instruction does not reach commutes with it. -/
theorem exec_mapDevices {i : Instr} {screen : Frame → Frame} {keypad : BitVec 16 → BitVec 16} (s : State)
    (noScreen : i.reachesScreen = false ∨ screen = id) (noKeys : i.readsKeys = false ∨ keypad = id) :
    exec i (s.mapDevices screen keypad) = mapNext (State.mapDevices screen keypad) (exec i s) := by
  cases i with
  | cls _ =>
    obtain rfl := noScreen.resolve_left nofun
    rfl
  | drw _ _ _ =>
    obtain rfl := noScreen.resolve_left nofun
    exact withAccess_mapNext rfl rfl
  | skp _ | sknp _ =>
    obtain rfl := noKeys.resolve_left nofun
    rfl
  | ldVxK x =>
    obtain rfl := noKeys.resolve_left nofun
    exact execLdVxK_mapDevices screen x s
  | call _ => exact pushStack_mapNext rfl rfl rfl
  | ret _ => exact popStack_mapNext rfl rfl fun _ _ => rfl
  | ldBVx _ | ldMemVx _ => exact withAccess_mapNext rfl rfl
  | ldVxMem x =>
    refine withAccess_mapNext rfl ?_
    rw [loadRegs_mapDevices]
    rfl
  | _ => rfl

/-- For an instruction that does not read the keypad this is `exec_mapDevices` with the key state replaced by itself: the answer is the same answer
with that key state put back. -/
theorem exec_keeps_keys {i : Instr} {s t : State} (h : exec i s = .next t) : t.keys = s.keys := by
  cases reads : i.readsKeys with
  | false =>
    have same : exec i s = mapNext (State.mapDevices id fun _ => s.keys) (exec i s) :=
      exec_mapDevices (screen := id) (keypad := fun _ => s.keys) s (.inr rfl) (.inl reads)
    rw [h] at same
    injection same with putBack
    exact (congrArg State.keys putBack).trans rfl
  | true =>
    cases i with
    | skp _ | sknp _ =>
      cases h
      rfl
    | ldVxK x => exact execLdVxK_keeps_keys h
    | _ => cases reads

/-- Settles O51: the two comparisons are a change of one device only, with the other left as it is. -/
theorem onlyTheirInstructionsReachTheDevices : Obligations.OnlyTheirInstructionsReachTheDevices := by
  intro i s
  refine ⟨fun f noScreen => ?_, fun k noKeys => ?_, fun t => exec_keeps_keys⟩
  · exact exec_mapDevices (screen := fun _ => f) (keypad := id) s (.inl noScreen) (.inr rfl)
  · exact exec_mapDevices (screen := id) (keypad := fun _ => k) s (.inr rfl) (.inl noKeys)

end Sys2Proof.Machine
end

section
/-! FX65, the load of V0 to VX through I (43_index_memory R175): its range check, I after the transfer, what it leaves unchanged, and the obligation
that rests on them. -/

namespace Sys2Proof.Machine

/-- V0 to VX are at least one register, so the check of a transfer at `a` has no empty case: it passes iff the last byte is in range. -/
theorem inRange_regCount (a : Word) (x : Reg) : inRange a (regCount x) ↔ a.toNat + x.toNat ≤ 0xFFF := by
  rw [inRange_iff, regCount]
  omega

/-- I after a transfer that passed its check is the exact sum: `trunc_16` discards nothing. -/
theorem indexAfterTransfer_toNat {s : State} {x : Reg} (range : s.i.toNat + x.toNat ≤ 0xFFF) :
    (indexAfterTransfer s x).toNat = if s.params.loadStoreIncrementsI then s.i.toNat + x.toNat + 1 else s.i.toNat := by
  unfold indexAfterTransfer regCount
  split
  · rw [BitVec.toNat_add, BitVec.toNat_ofNat]
    omega
  · rfl

/-- A state reached by changing what `c` names, I and the two fields that `finish` writes still agrees in everything else. -/
theorem KeptExcept.setI_finish {c : Changes} {s u : State} (kept : KeptExcept c s u) (w pc : Word) (r : Report) :
    KeptExcept { c with index := true } s ((u.setI w).finish pc r) := by
  obtain ⟨regs, -, rest⟩ := kept
  exact ⟨regs, nofun, rest⟩

theorem loadRegs_getV_of_le {s : State} {x k : Reg} (listed : k.toNat ≤ x.toNat) :
    (loadRegs s x).getV k = Memory.read s.mem (s.i.toNat + k.toNat) := by
  rw [loadRegs_getV, if_pos listed, byteAddr]

theorem loadRegs_getV_of_lt {s : State} {x k : Reg} (above : x.toNat < k.toNat) : (loadRegs s x).getV k = s.getV k := by
  rw [loadRegs_getV, if_neg above.not_ge]

theorem loadRegs_pc (s : State) (x : Reg) : (loadRegs s x).pc = s.pc := by rw [loadRegs_eq]

/-- The loads write V0 to VX and nothing else. -/
theorem loadRegs_keptExcept (s : State) (x : Reg) : KeptExcept { regs := regsThrough x } s (loadRegs s x) := by
  have regs : ∀ y, y ∉ regsThrough x → (loadRegs s x).getV y = s.getV y := fun y unlisted =>
    loadRegs_getV_of_lt (not_le.mp (mt (mem_regsThrough x y).mpr unlisted))
  refine ⟨regs, ?_⟩
  rw [loadRegs_eq]
  simp

/-- FX65 in range: the loads, then I, then `next`. -/
theorem exec_ldVxMem_inRange {s : State} {x : Reg} (range : s.i.toNat + x.toNat ≤ 0xFFF) :
    exec (.ldVxMem x) s = .next (((loadRegs s x).setI (indexAfterTransfer s x)).finish (s.pc + 2#16) .ok) := by
  have checked : exec (.ldVxMem x) s = advance ((loadRegs s x).setI (indexAfterTransfer s x)) :=
    withAccess_inRange ((inRange_regCount s.i x).mpr range)
  rw [checked, advance_eq, State.setI_pc, loadRegs_pc]

/-- FX65 past 0xFFF: the fatal outcome of the check, which precedes every load. -/
theorem exec_ldVxMem_outOfRange {s : State} {x : Reg} (past : 0xFFF < s.i.toNat + x.toNat) :
    exec (.ldVxMem x) s = .fault (.addressOutOfRange (BitVec.ofNat 16 (max s.i.toNat 0x1000)) .read s.pc) := by
  rw [← failAddr_eq]
  exact withAccess_outOfRange (mt (inRange_regCount s.i x).mp past.not_ge)

/-- Settles O30: in range the registers are those after the loads and I the one after the transfer; past 0xFFF the check ends the instruction. -/
theorem registersAreLoaded : Obligations.RegistersAreLoaded := by
  intro x s
  refine ⟨fun range => ?_, exec_ldVxMem_outOfRange⟩
  exact ⟨_, exec_ldVxMem_inRange range, fun k => loadRegs_getV_of_le, fun k => loadRegs_getV_of_lt, indexAfterTransfer_toNat range, rfl, rfl,
    (loadRegs_keptExcept s x).setI_finish _ _ _⟩

end Sys2Proof.Machine
end

section
/-! The outcomes of a step that are not fatal, and the tick (60_exceptions R232, R233, R240): a step at a PC that can be fetched as the meaning of the
word there, the answers for an UNKNOWN word and for an FX0A that waits, and the obligations that rest on them. -/

namespace Sys2Proof.Machine

/-! ## The step on a known word -/

/-- The fetch at an even PC in range answers the word whose value is that of the two bytes there, high byte first. -/
theorem fetch_eq_word {s : State} {w : Word} (even : s.pc.toNat % 2 = 0) (range : s.pc.toNat ≤ 0xFFE)
    (bytes : w.toNat = 256 * (Memory.read s.mem s.pc.toNat).toNat + (Memory.read s.mem (s.pc.toNat + 1)).toNat) : fetch s = .word w := by
  have same : wordOfBytes (Memory.read s.mem s.pc.toNat) (Memory.read s.mem (s.pc.toNat + 1)) = w := by
    apply BitVec.eq_of_toNat_eq
    rw [wordOfBytes_toNat, bytes]
  rw [fetch_word even range, same]

/-- A step transaction whose fetch answers `w` executes `w` on the latched state; taking it off `pending` does not change the fetch. -/
theorem step_of_fetch {s : State} {w : Word} (next : s.nextAction = .step) (fetched : fetch s = .word w) :
    step s = execWord w (s.dequeued.latch w) := by
  rw [step_of_step next]
  exact runInstr_word ((fetch_congr rfl rfl).trans fetched)

/-- Where the fetched word is an instruction, the step is that instruction on the latched state. -/
theorem step_of_fetch_instr {s : State} {w : Word} {i : Instr} (next : s.nextAction = .step) (fetched : fetch s = .word w)
    (decoded : decode w = .instr i) : step s = exec i (s.dequeued.latch w) := by
  rw [step_of_fetch next fetched, execWord, decoded]

/-- Where the fetched word is UNKNOWN, the step is the report of it on the latched state. -/
theorem step_of_fetch_unknown {s : State} {w : Word} (next : s.nextAction = .step) (fetched : fetch s = .word w)
    (unknown : decode w = .unknown w) : step s = reportUnknown w (s.dequeued.latch w) := by
  rw [step_of_fetch next fetched, execWord, unknown]

/-! ## The key wait -/

theorem isDown_of_keys_eq_zero {s : State} (up : s.keys = 0) (k : Nibble) : s.isDown k = false := by
  rw [State.isDown, up]
  exact BitVec.getLsbD_zero

/-- FX0A with no key down ends in `retry`. -/
theorem exec_ldVxK_of_keys_eq_zero {s : State} (x : Reg) (up : s.keys = 0) : exec (.ldVxK x) s = retryStep s := by
  have scan : firstKeyDown s = none := firstKeyDown_eq_none.mpr (isDown_of_keys_eq_zero up)
  change execLdVxK x s = retryStep s
  rw [execLdVxK, scan]

/-! ## The tick -/

theorem step_of_tick {s : State} (next : s.nextAction = .tick) : step s = .next (tick s.dequeued) := by
  rw [step, next]
  rfl

/-- The tone is due iff ST, as a number, is 1. -/
theorem tick_report (s : State) : (tick s).report = .tone (decide (s.st.toNat = 1)) := by
  have one : (s.st == 1) = decide (s.st.toNat = 1) := by
    rw [beq_eq_decide, decide_eq_decide, ← BitVec.toNat_inj]
    rfl
  rw [tick, one]

/-! ## The obligations -/

/-- Settles O7: the fetched word is UNKNOWN, so the step on it is the report. -/
theorem unknownWordIsReportedAndSkipped : Obligations.UnknownWordIsReportedAndSkipped := by
  intro s w next even range bytes unknown
  exact step_of_fetch_unknown next (fetch_eq_word even range bytes) unknown

/-- Settles O38: the wait moves neither the PC nor memory, so the next step fetches the same word, and its latch already holds it. -/
theorem keyWaitRetriesTheSameStep : Obligations.KeyWaitRetriesTheSameStep := by
  intro x s w next even range bytes decoded up
  have fetched : fetch s = .word w := fetch_eq_word even range bytes
  have waits : step s = .next ((s.dequeued.latch w).finish s.pc .waitKey) :=
    (step_of_fetch_instr next fetched decoded).trans (exec_ldVxK_of_keys_eq_zero x up)
  refine ⟨_, waits, rfl, fun again => ?_⟩
  have retried := step_of_fetch_instr again ((fetch_congr rfl rfl).trans fetched) decoded
  exact ⟨retried, retried.trans (exec_ldVxK_of_keys_eq_zero x up)⟩

/-- Settles O39: a tick is the two countdowns and the tone. -/
theorem tickDecrementsBothTimers : Obligations.TickDecrementsBothTimers := by
  intro s next
  refine ⟨countDown s.dt, countDown s.st, ?_, countDown_toNat s.dt, countDown_toNat s.st⟩
  rw [step_of_tick next, ← State.dequeued_st, ← tick_report]
  rfl

end Sys2Proof.Machine
end

section
/-! Decoder and encoder against each other (30_encoding R71 to R78): the fields of each format, which words each tier answers and with which
instruction, the two round trips, and the obligations that rest on them. -/

namespace Sys2Proof

open Laws.EncodesRow (formatA_row formatXK_row formatXK_family formatXYN_row formatXYN_family)

/-! ## The fields of a format -/

@[simp] theorem fieldNNN_formatA (c : Nibble) (nnn : Addr) : fieldNNN (formatA c nnn) = nnn := by
  apply BitVec.eq_of_toNat_eq
  rw [fieldNNN_toNat, formatA_toNat]
  omega

@[simp] theorem fieldX_formatXK (c x : Nibble) (k : Byte) : fieldX (formatXK c x k) = x := by
  apply BitVec.eq_of_toNat_eq
  rw [fieldX_toNat, formatXK_toNat]
  omega

@[simp] theorem fieldNN_formatXK (c x : Nibble) (k : Byte) : fieldNN (formatXK c x k) = k := by
  apply BitVec.eq_of_toNat_eq
  rw [fieldNN_toNat, formatXK_toNat]
  omega

@[simp] theorem fieldX_formatXYN (c x y n : Nibble) : fieldX (formatXYN c x y n) = x := by
  apply BitVec.eq_of_toNat_eq
  rw [fieldX_toNat, formatXYN_toNat]
  omega

@[simp] theorem fieldY_formatXYN (c x y n : Nibble) : fieldY (formatXYN c x y n) = y := by
  apply BitVec.eq_of_toNat_eq
  rw [fieldY_toNat, formatXYN_toNat]
  omega

@[simp] theorem fieldN_formatXYN (c x y n : Nibble) : fieldN (formatXYN c x y n) = n := by
  apply BitVec.eq_of_toNat_eq
  rw [fieldN_toNat, formatXYN_toNat]
  omega

/-! ## A word is the format of its own fields -/

theorem formatA_fieldNNN {w : Word} {c : Nibble} (family : w.toNat / 4096 = c.toNat) : formatA c (fieldNNN w) = w := by
  apply BitVec.eq_of_toNat_eq
  rw [formatA_toNat, fieldNNN_toNat]
  omega

theorem formatXK_fieldX {w : Word} {c : Nibble} {k : Byte} (family : w.toNat / 4096 = c.toNat) (low : w.toNat % 256 = k.toNat) :
    formatXK c (fieldX w) k = w := by
  apply BitVec.eq_of_toNat_eq
  rw [formatXK_toNat, fieldX_toNat]
  omega

theorem formatXK_fields {w : Word} {c : Nibble} (family : w.toNat / 4096 = c.toNat) : formatXK c (fieldX w) (fieldNN w) = w :=
  formatXK_fieldX family (fieldNN_toNat w).symm

theorem formatXYN_fieldsXY {w : Word} {c n : Nibble} (family : w.toNat / 4096 = c.toNat) (low : w.toNat % 16 = n.toNat) :
    formatXYN c (fieldX w) (fieldY w) n = w := by
  apply BitVec.eq_of_toNat_eq
  rw [formatXYN_toNat, fieldX_toNat, fieldY_toNat]
  omega

theorem formatXYN_fields {w : Word} {c : Nibble} (family : w.toNat / 4096 = c.toNat) :
    formatXYN c (fieldX w) (fieldY w) (fieldN w) = w :=
  formatXYN_fieldsXY family (fieldN_toNat w).symm

/-! ## Which words a tier leaves to the next (30_encoding R75) -/

/-- Tier 1 answers exactly the words whose family and low byte are one of its thirteen keys. -/
theorem tier1_eq_none {w : Word} : tier1 w = none ↔ w.toNat / 4096 * 4096 + w.toNat % 256 ∉
    [0x00E0, 0x00EE, 0xE09E, 0xE0A1, 0xF007, 0xF00A, 0xF015, 0xF018, 0xF01E, 0xF029, 0xF033, 0xF055, 0xF065] := by
  rw [← mask1_toNat]
  unfold tier1
  split
  case h_14 => simp_all [← BitVec.toNat_inj]
  all_goals simp_all

/-- Tier 2 answers exactly the words whose family and low nibble are one of its eleven keys. -/
theorem tier2_eq_none {w : Word} : tier2 w = none ↔ w.toNat / 4096 * 4096 + w.toNat % 16 ∉
    [0x5000, 0x8000, 0x8001, 0x8002, 0x8003, 0x8004, 0x8005, 0x8006, 0x8007, 0x800E, 0x9000] := by
  rw [← mask2_toNat]
  unfold tier2
  split
  case h_12 => simp_all [← BitVec.toNat_inj]
  all_goals simp_all

/-- Tier 3 answers exactly the words of its eleven families. -/
theorem tier3_eq_none {w : Word} : tier3 w = none ↔ w.toNat / 4096 * 4096 ∉
    [0x0000, 0x1000, 0x2000, 0x3000, 0x4000, 0x6000, 0x7000, 0xA000, 0xB000, 0xC000, 0xD000] := by
  rw [← mask3_toNat]
  unfold tier3
  split
  case h_12 => simp_all [← BitVec.toNat_inj]
  all_goals simp_all

/-! ## Encode after decode -/

/-- An instruction that tier 1 answers is well-formed, and the word is its word. -/
theorem encode_of_tier1 {w : Word} {i : Instr} (h : tier1 w = some i) : i.wf = true ∧ encode i = w := by
  have key := mask1_toNat w
  unfold tier1 at h
  split at h
  case h_14 => cases h
  all_goals
    rename_i masked
    rw [masked] at key
    cases h
    refine ⟨rfl, formatXK_fieldX ?_ ?_⟩ <;> simp at key ⊢ <;> omega

/-- An instruction that tier 2 answers is well-formed, and the word is its word. -/
theorem encode_of_tier2 {w : Word} {i : Instr} (h : tier2 w = some i) : i.wf = true ∧ encode i = w := by
  have key := mask2_toNat w
  unfold tier2 at h
  split at h
  case h_12 => cases h
  all_goals
    rename_i masked
    rw [masked] at key
    cases h
    refine ⟨rfl, formatXYN_fieldsXY ?_ ?_⟩ <;> simp at key ⊢ <;> omega

/-- The address of a word that tier 1 leaves in family 0 makes a well-formed SYS: a low byte 0xE0 or 0xEE would have been CLS or RET (30_encoding R77). -/
theorem sys_wf_of_tier1_eq_none {w : Word} (family : w.toNat / 4096 = 0) (left : tier1 w = none) : (Instr.sys (fieldNNN w)).wf = true := by
  have low : ((fieldNNN w).setWidth 8).toNat = w.toNat % 256 := by
    rw [BitVec.toNat_setWidth, fieldNNN_toNat]
    omega
  have keys := tier1_eq_none.mp left
  simp only [family, List.mem_cons, not_or] at keys
  simp only [Instr.wf, Bool.and_eq_true, bne_iff_ne, ne_eq, ← BitVec.toNat_inj, low]
  simp
  omega

/-- An instruction that tier 3 answers for a word tier 1 left to it is well-formed, and the word is its word. -/
theorem encode_of_tier3 {w : Word} {i : Instr} (left : tier1 w = none) (h : tier3 w = some i) : i.wf = true ∧ encode i = w := by
  have key := mask3_toNat w
  unfold tier3 at h
  split at h
  case h_12 => cases h
  all_goals
    rename_i masked
    rw [masked] at key
    simp at key
    cases h
  case h_1 => exact ⟨sys_wf_of_tier1_eq_none (by omega) left, formatA_fieldNNN (by simp; omega)⟩
  case h_2 | h_3 | h_8 | h_9 => exact ⟨rfl, formatA_fieldNNN (by simp; omega)⟩
  case h_11 => exact ⟨rfl, formatXYN_fields (by simp; omega)⟩
  all_goals exact ⟨rfl, formatXK_fields (by simp; omega)⟩

/-- Settles O2: whichever tier answers, the answer is made of the word's own fields. -/
theorem encodeOfDecodeIsTheWord : Obligations.EncodeOfDecodeIsTheWord := by
  intro w i h
  rcases decode_instr.mp h with first | ⟨-, second⟩ | ⟨left, -, third⟩
  · exact encode_of_tier1 first
  · exact encode_of_tier2 second
  · exact encode_of_tier3 left third

/-! ## Decode after encode -/

/-- A well-formed SYS is left by tier 1: its low byte is none of the two keys of family 0. -/
theorem tier1_encode_sys {nnn : Addr} (wf : (Instr.sys nnn).wf = true) : tier1 (encode (.sys nnn)) = none := by
  have word : (encode (.sys nnn)).toNat = nnn.toNat := (formatA_toNat _ _).trans (by simp)
  simp only [Instr.wf, Bool.and_eq_true, bne_iff_ne, ne_eq, ← BitVec.toNat_inj, BitVec.toNat_setWidth] at wf
  rw [tier1_eq_none, word]
  simp at wf ⊢
  omega

theorem decode_of_tier2 {w : Word} {i : Instr} (family : w.toNat / 4096 = 5 ∨ w.toNat / 4096 = 8 ∨ w.toNat / 4096 = 9)
    (h : tier2 w = some i) : decode w = .instr i :=
  decode_instr.mpr (.inr (.inl ⟨tier1_none (by omega), h⟩))

theorem decode_of_tier3 {w : Word} {i : Instr} (left : tier1 w = none)
    (family : w.toNat / 4096 ≠ 5 ∧ w.toNat / 4096 ≠ 8 ∧ w.toNat / 4096 ≠ 9) (h : tier3 w = some i) : decode w = .instr i :=
  decode_instr.mpr (.inr (.inr ⟨left, tier2_none family, h⟩))

/-- Decoding the word of a well-formed instruction gives it back: the word has the key of the instruction's tier and of no tier before. -/
theorem decode_encode {i : Instr} (wf : i.wf = true) : decode (encode i) = .instr i := by
  cases i with
  | cls _ | ret _ | skp _ | sknp _ | ldVxDt _ | ldVxK _ | ldDtVx _ | ldStVx _ | addIVx _ | ldFVx _ | ldBVx _ | ldMemVx _ | ldVxMem _ =>
    exact decode_instr.mpr (.inl (by simp [encode, tier1, formatXK_row]))
  | seVxVy _ _ | ldVxVy _ _ | orVxVy _ _ | andVxVy _ _ | xorVxVy _ _ | addVxVy _ _ | subVxVy _ _ | shrVx _ _ | subnVxVy _ _
  | shlVx _ _ | sneVxVy _ _ =>
    exact decode_of_tier2 (by rw [encode, formatXYN_toNat]; simp; omega) (by simp [encode, tier2, formatXYN_row])
  | sys _ =>
    exact decode_of_tier3 (tier1_encode_sys wf) (by rw [encode, formatA_toNat]; simp; omega) (by simp [encode, tier3, formatA_row])
  | jp _ | call _ | ldI _ | jpV0 _ =>
    refine decode_of_tier3 (tier1_none ?_) ?_ (by simp [encode, tier3, formatA_row]) <;> rw [encode, formatA_toNat] <;> simp <;> omega
  | seVxNn _ _ | sneVxNn _ _ | ldVxNn _ _ | addVxNn _ _ | rnd _ _ =>
    refine decode_of_tier3 (tier1_none ?_) ?_ (by simp [encode, tier3, formatXK_family]) <;> rw [encode, formatXK_toNat] <;> simp <;> omega
  | drw _ _ _ =>
    refine decode_of_tier3 (tier1_none ?_) ?_ (by simp [encode, tier3, formatXYN_family]) <;> rw [encode, formatXYN_toNat] <;> simp <;> omega

/-- Settles O1: the two bytes of an instruction, put together again, are its word. -/
theorem decodeOfEncodeIsTheInstruction : Obligations.DecodeOfEncodeIsTheInstruction := by
  intro i rest wf
  have word : decode (encode i) = .instr i := decode_encode wf
  refine ⟨word, ?_⟩
  change DecodedBytes.word (decode (wordOfBytes (highByte (encode i)) (lowByte (encode i)))) rest = .word (.instr i) rest
  rw [wordOfBytes_bytes, word]

/-! ## The UNKNOWN words and samples -/

/-- Settles O3: UNKNOWN is what all three tiers leave. -/
theorem unknownWordsAreExactlyTheListed : Obligations.UnknownWordsAreExactlyTheListed := by
  intro w
  refine ⟨fun u h => (decode_unknown.mp h).1, ?_⟩
  have range : w.toNat / 4096 < 16 := by omega
  have nibble : w.toNat % 16 = w.toNat % 256 % 16 := by omega
  rw [decode_unknown, tier1_eq_none, tier2_eq_none, tier3_eq_none, nibble]
  generalize w.toNat / 4096 = family at *
  interval_cases family <;> simp <;> omega

/-- Settles O4: each word is decoded. -/
theorem sampleWordsDecode : Obligations.SampleWordsDecode := by
  unfold Obligations.SampleWordsDecode
  decide

/-- Settles O5: the two words are those of CLS and RET with that z. -/
theorem familyZeroAliasesAreClsAndRet : Obligations.FamilyZeroAliasesAreClsAndRet := by
  intro z
  have cls : decode (encode (.cls z)) = .instr (.cls z) := decode_encode rfl
  have ret : decode (encode (.ret z)) = .instr (.ret z) := decode_encode rfl
  exact ⟨cls, ret⟩

end Sys2Proof
end

section
/-! The assembler syntax (30_encoding R81): reading a line is the inverse of writing an instruction's line, and the obligations that rest on it. -/

namespace Sys2Proof

theorem AsmLine.eq_mk {line : AsmLine} {m : Mnemonic} {operands : List AsmOperand} (hm : line.mnemonic = m) (ho : line.operands = operands) :
    line = ⟨m, operands⟩ := by
  subst hm ho
  rfl

theorem assemble_eq_some {line : AsmLine} {i : Instr} : assemble line = some i ↔ readLine line = some i ∧ i.wf = true := by
  unfold assemble
  cases readLine line with
  | none => simp
  | some j =>
    by_cases same : j = i
    · simp [same]
    · simp [same]

/-- A line is read as the instruction it was written for; CLS and RET are read with z = 0. -/
theorem readLine_disassemble {i : Instr} (zero : ∀ z, i = .cls z ∨ i = .ret z → z = 0x0) : readLine (disassemble i) = some i := by
  cases i with
  | cls z =>
    obtain rfl := zero z (.inl rfl)
    rfl
  | ret z =>
    obtain rfl := zero z (.inr rfl)
    rfl
  | _ => rfl

/-- A line that is read as an instruction is that instruction's line, or the line of a SHR or SHL without its Vy. -/
theorem eq_disassemble_of_readLine {line : AsmLine} {i : Instr} (h : readLine line = some i) :
    line = disassemble i ∨
      ∃ x, (i = .shrVx x 0x0 ∧ line = ⟨.shr, [.reg x]⟩) ∨ (i = .shlVx x 0x0 ∧ line = ⟨.shl, [.reg x]⟩) := by
  unfold readLine at h
  split at h
  case h_38 => cases h
  all_goals have written := AsmLine.eq_mk ‹line.mnemonic = _› ‹line.operands = _›
  case h_5 =>
    split at h
    case isTrue isV0 =>
      subst isV0
      cases h
      exact .inl written
    case isFalse => cases h
  case h_29 x _ _ =>
    cases h
    exact .inr ⟨x, .inl ⟨rfl, written⟩⟩
  case h_32 x _ _ =>
    cases h
    exact .inr ⟨x, .inr ⟨rfl, written⟩⟩
  all_goals
    cases h
    exact .inl written

/-- Settles O55: reading inverts writing in both directions, and the check for a word is well-formedness. -/
theorem assemblyLinesAreTheInstructions : Obligations.AssemblyLinesAreTheInstructions := by
  refine ⟨fun i wf zero => assemble_eq_some.mpr ⟨readLine_disassemble zero, wf⟩, fun line i h => ?_⟩
  obtain ⟨read, wf⟩ := assemble_eq_some.mp h
  exact ⟨wf, eq_disassemble_of_readLine read⟩

/-! ## The optional Vy of SHR and SHL -/

theorem formatXYN_field_y (c x y n : Nibble) : (formatXYN c x y n).toNat / 16 % 16 = y.toNat := by
  rw [formatXYN_toNat]
  omega

/-- The Y field of a word is its bits 4 to 7: every other bit is the same whatever the field holds. -/
theorem formatXYN_getLsbD_outside_y (c x y z n : Nibble) {k : Nat} (outside : k < 4 ∨ 8 ≤ k) :
    (formatXYN c x y n).getLsbD k = (formatXYN c x z n).getLsbD k := by
  simp only [formatXYN, BitVec.getLsbD_append]
  rcases outside with low | high
  · simp [low]
  · simp [show ¬ k < 4 by omega, show ¬ k - 4 < 4 by omega]

/-- Settles O56: the two lines differ in the Y field only, which the meaning of a shift ignores (42_alu R149, R151). -/
theorem shiftVyOnlyFillsTheYField : Obligations.ShiftVyOnlyFillsTheYField := by
  rintro m x y (rfl | rfl)
  · exact ⟨.shrVx x 0, .shrVx x y, rfl, rfl, formatXYN_field_y _ _ _ _, fun _ _ => formatXYN_getLsbD_outside_y _ _ _ _ _,
      decode_encode rfl, fun _ => ⟨rfl, _, rfl⟩⟩
  · exact ⟨.shlVx x 0, .shlVx x y, rfl, rfl, formatXYN_field_y _ _ _ _, fun _ _ => formatXYN_getLsbD_outside_y _ _ _ _ _,
      decode_encode rfl, fun _ => ⟨rfl, _, rfl⟩⟩

end Sys2Proof
end

section
/-! What one instruction does beside its own effect: the fields it leaves alone (10_state R23) and where the program counter goes (10_state R25), from the
shared operations up to `exec`, and the obligations that state these two rules. -/

namespace Sys2Proof.Machine

/-! ## Properties of the next state -/

/-- Every next state that `r` can answer satisfies `p`; a fatal outcome has no next state. -/
def NextSat (p : State → Prop) (r : Result) : Prop := ∀ t, r = .next t → p t

theorem nextSat_next {p : State → Prop} {u : State} (h : p u) : NextSat p (.next u) := by
  rintro t ⟨⟩
  exact h

theorem nextSat_advance {p : State → Prop} {u : State} (h : p (u.finish (u.pc + 2#16) .ok)) : NextSat p (advance u) := nextSat_next h

theorem nextSat_jumpTo {p : State → Prop} {u : State} {target : Word} (h : p (u.finish target .ok)) : NextSat p (jumpTo target u) :=
  nextSat_next h

theorem nextSat_skipIf {p : State → Prop} {c : Bool} {u : State} (h : p (u.finish (u.pc + (if c then 4#16 else 2#16)) .ok)) :
    NextSat p (skipIf c u) := nextSat_next h

theorem nextSat_withAccess {p : State → Prop} {s : State} {a : Word} {n : Nat} {kind : AccessKind} {r : Result} (h : NextSat p r) :
    NextSat p (withAccess s a n kind r) :=
  fun t answered => h t (withAccess_next answered).2

theorem nextSat_pushStack {p : State → Prop} {s : State} {w : Word} {rest : State → Result}
    (h : NextSat p (rest (s.setStack (w :: s.stack)))) : NextSat p (pushStack w rest s) :=
  fun t answered => h t (pushStack_next answered).2

theorem nextSat_popStack {p : State → Prop} {s : State} {rest : Word → State → Result}
    (h : ∀ a below, s.stack = a :: below → NextSat p (rest a (s.setStack below))) : NextSat p (popStack rest s) := by
  intro t answered
  obtain ⟨a, below, held, rested⟩ := popStack_next answered
  exact h a below held t rested

/-- FX0A either stores the lowest key that is down or waits. -/
theorem nextSat_execLdVxK {p : State → Prop} {x : Reg} {s : State}
    (down : ∀ k, firstKeyDown s = some k → p ((s.setV x (nibbleByte k)).finish (s.pc + 2#16) .ok))
    (wait : firstKeyDown s = none → p (s.finish s.pc .waitKey)) : NextSat p (execLdVxK x s) := by
  unfold execLdVxK
  split
  · exact nextSat_next (down _ ‹_›)
  · exact nextSat_next (wait ‹_›)

/-! ## The frame of an instruction -/

/-- `KeptExcept`, with memory the same list and not only the same bytes where `c` does not name it. The PC and the report are not compared, so `finish`
keeps it by definition. -/
def KeptExactly (c : Changes) (s t : State) : Prop := KeptExcept c s t ∧ (c.memory = false → t.mem = s.mem)

theorem KeptExactly.refl (c : Changes) (s : State) : KeptExactly c s s := by simp [KeptExactly, KeptExcept]

section
variable {c : Changes} {s u : State}

theorem KeptExactly.setV (kept : KeptExactly c s u) {x : Reg} (named : x ∈ c.regs) (b : Byte) : KeptExactly c s (u.setV x b) := by
  obtain ⟨⟨regs, rest⟩, mem⟩ := kept
  refine ⟨⟨fun y other => ?_, rest⟩, mem⟩
  rw [State.getV_setV_ne u b (ne_of_mem_of_not_mem named other).symm]
  exact regs y other

theorem KeptExactly.setFlagThen (kept : KeptExactly c s u) {x : Reg} (flag : vF ∈ c.regs) (named : x ∈ c.regs) (b : Bool) (result : Byte) :
    KeptExactly c s (u.setFlagThen b x result) := (kept.setV flag _).setV named _

theorem KeptExactly.setI (kept : KeptExactly c s u) (named : c.index = true) (w : Word) : KeptExactly c s (u.setI w) := by
  simp_all [KeptExactly, KeptExcept]

theorem KeptExactly.setMem (kept : KeptExactly c s u) (named : c.memory = true) (m : Memory) : KeptExactly c s (u.setMem m) := by
  simp_all [KeptExactly, KeptExcept]

theorem KeptExactly.setStack (kept : KeptExactly c s u) (named : c.stack = true) (k : List Word) : KeptExactly c s (u.setStack k) := by
  simp_all [KeptExactly, KeptExcept]

theorem KeptExactly.setDt (kept : KeptExactly c s u) (named : c.delay = true) (b : Byte) : KeptExactly c s (u.setDt b) := by
  simp_all [KeptExactly, KeptExcept]

theorem KeptExactly.setSt (kept : KeptExactly c s u) (named : c.sound = true) (b : Byte) : KeptExactly c s (u.setSt b) := by
  simp_all [KeptExactly, KeptExcept]

theorem KeptExactly.setFb (kept : KeptExactly c s u) (named : c.screen = true) (f : Frame) : KeptExactly c s (u.setFb f) := by
  simp_all [KeptExactly, KeptExcept]

theorem KeptExactly.drawn (kept : KeptExactly c s u) (named : c.random = true) : KeptExactly c s u.drawn := by
  simp_all [KeptExactly, KeptExcept]

end

theorem loadRegs_mem (s : State) (x : Reg) : (loadRegs s x).mem = s.mem := by rw [loadRegs_eq]

/-- The frame rule: an instruction writes what its row of the table of 10_state R23 names. -/
theorem exec_keptExactly (i : Instr) (s : State) : NextSat (KeptExactly i.changes s) (exec i s) := by
  have same : KeptExactly i.changes s s := .refl i.changes s
  cases i with
  | sys _ => exact nextSat_advance same
  | jp _ | jpV0 _ => exact nextSat_jumpTo same
  | call _ => exact nextSat_pushStack (nextSat_jumpTo (same.setStack rfl _))
  | ret _ => exact nextSat_popStack fun _ _ _ => nextSat_jumpTo (same.setStack rfl _)
  | seVxNn _ _ | sneVxNn _ _ | seVxVy _ _ | sneVxVy _ _ | skp _ | sknp _ => exact nextSat_skipIf same
  | ldVxNn _ _ | addVxNn _ _ | ldVxVy _ _ | orVxVy _ _ | andVxVy _ _ | xorVxVy _ _ | ldVxDt _ =>
    exact nextSat_advance (same.setV (List.mem_singleton_self _) _)
  | addVxVy x _ | subVxVy x _ | shrVx x _ | subnVxVy x _ | shlVx x _ =>
    exact nextSat_advance (same.setFlagThen (List.mem_cons_self ..) (List.mem_cons_of_mem _ (List.mem_singleton_self x)) _ _)
  | rnd _ _ => exact nextSat_advance ((same.drawn rfl).setV (List.mem_singleton_self _) _)
  | ldI _ | addIVx _ | ldFVx _ => exact nextSat_advance (same.setI rfl _)
  | ldBVx _ => exact nextSat_withAccess (nextSat_advance (same.setMem rfl _))
  | ldMemVx _ => exact nextSat_withAccess (nextSat_advance ((same.setMem rfl _).setI rfl _))
  | ldVxMem x =>
    exact nextSat_withAccess (nextSat_advance ⟨(loadRegs_keptExcept s x).setI_finish _ _ _, fun _ => loadRegs_mem s x⟩)
  | cls _ => exact nextSat_advance (same.setFb rfl _)
  | drw _ _ _ => exact nextSat_withAccess (nextSat_advance ((same.setFb rfl _).setV (List.mem_singleton_self _) _))
  | ldVxK _ => exact nextSat_execLdVxK (fun _ _ => same.setV (List.mem_singleton_self _) _) fun _ => same
  | ldDtVx _ => exact nextSat_advance (same.setDt rfl _)
  | ldStVx _ => exact nextSat_advance (same.setSt rfl _)

/-- Settles O48: the frame rule, with memory compared by its bytes. -/
theorem everyInstructionKeepsItsFrame : Obligations.EveryInstructionKeepsItsFrame := fun i s t h => (exec_keptExactly i s t h).1

/-- An instruction whose row does not name memory leaves it as it is, to the list of cells. -/
theorem exec_keeps_mem {i : Instr} {s t : State} (unnamed : i.changes.memory = false) (h : exec i s = .next t) : t.mem = s.mem :=
  (exec_keptExactly i s t h).2 unnamed

/-! ## The program counter -/

/-- A skip is `skip_if` on the condition of its row (41_skips R120 to R126). -/
theorem exec_skip {i : Instr} (s : State) (skip : i.isSkip = true) : exec i s = skipIf (i.skipTaken s) s := by
  have key : ∀ v, s.isDown (lowNibble v) = s.keys.getLsbD (v.toNat % 16) := fun v => by rw [State.isDown, lowNibble_toNat]
  cases i with
  | seVxNn _ _ | seVxVy _ _ => rfl
  | sneVxNn x nn =>
    have negated : (s.getV x != nn) = decide (s.getV x ≠ nn) := by simp [bne, beq_eq_decide]
    exact congrArg (skipIf · s) negated
  | sneVxVy x y =>
    have negated : (s.getV x != s.getV y) = decide (s.getV x ≠ s.getV y) := by simp [bne, beq_eq_decide]
    exact congrArg (skipIf · s) negated
  | skp x => exact congrArg (skipIf · s) (key (s.getV x))
  | sknp x => exact congrArg (fun down => skipIf (!down) s) (key (s.getV x))
  | _ => cases skip

theorem isDown_ofNat (s : State) {k : Nat} (h : k < 16) : s.isDown (BitVec.ofNat 4 k) = s.keys.getLsbD k := by
  rw [State.isDown, BitVec.toNat_ofNat, Nat.mod_eq_of_lt h]

/-- The key scan finds nothing iff the key state is 0. -/
theorem firstKeyDown_eq_none_iff_keys {s : State} : firstKeyDown s = none ↔ s.keys = 0 := by
  rw [firstKeyDown_eq_none]
  refine ⟨fun up => BitVec.eq_of_getLsbD_eq fun k hk => ?_, isDown_of_keys_eq_zero⟩
  rw [← isDown_ofNat s hk, up]
  exact BitVec.getLsbD_zero.symm

/-- A kind that ends with `next` does so in every state in which it does not wait for a key. -/
theorem exec_endsWithNext {i : Instr} {s : State} (kind : i.endsWithNext = true) (goes : ∀ x, i = .ldVxK x → s.keys ≠ 0) :
    NextSat (fun t => t.pc = s.pc + 2 ∧ t.report = .ok) (exec i s) := by
  cases i with
  | ret _ | jp _ | call _ | jpV0 _ | seVxNn _ _ | sneVxNn _ _ | seVxVy _ _ | sneVxVy _ _ | skp _ | sknp _ => cases kind
  | drw _ _ _ | ldBVx _ | ldMemVx _ => exact nextSat_withAccess (nextSat_advance ⟨rfl, rfl⟩)
  | ldVxMem x =>
    refine nextSat_withAccess (nextSat_advance ⟨?_, rfl⟩)
    rw [State.finish_pc, State.setI_pc, loadRegs_pc]
    rfl
  | ldVxK x =>
    have some_down : ¬ firstKeyDown s = none := mt firstKeyDown_eq_none_iff_keys.mp (goes x rfl)
    exact nextSat_execLdVxK (fun _ _ => ⟨rfl, rfl⟩) fun none_down => absurd none_down some_down
  | _ => exact nextSat_advance ⟨rfl, rfl⟩

theorem exec_ldVxK_waits {s : State} (x : Reg) (up : s.keys = 0) :
    NextSat (fun t => t.pc = s.pc ∧ t.report = .waitKey) (exec (.ldVxK x) s) := by
  rw [exec_ldVxK_of_keys_eq_zero x up]
  exact nextSat_next ⟨rfl, rfl⟩

theorem exec_skip_pc {i : Instr} (s : State) (skip : i.isSkip = true) :
    NextSat (fun t => t.pc = s.pc + (if i.skipTaken s = true then 4 else 2) ∧ t.report = .ok) (exec i s) := by
  rw [exec_skip s skip]
  exact nextSat_skipIf ⟨rfl, rfl⟩

/-- NNN + V0 is at most 0x10FE, so the 16-bit sum is the exact one (40_flow R106). -/
theorem jpV0_target_toNat (nnn : Addr) (b : Byte) : (addrWord nnn + byteWord b).toNat = nnn.toNat + b.toNat := by
  rw [BitVec.toNat_add, addrWord_toNat, byteWord_toNat]
  omega

theorem exec_jp_pc (nnn : Addr) (s : State) : NextSat (fun t => t.pc.toNat = nnn.toNat ∧ t.report = .ok) (exec (.jp nnn) s) :=
  nextSat_jumpTo ⟨addrWord_toNat nnn, rfl⟩

theorem exec_call_pc (nnn : Addr) (s : State) : NextSat (fun t => t.pc.toNat = nnn.toNat ∧ t.report = .ok) (exec (.call nnn) s) :=
  nextSat_pushStack (nextSat_jumpTo ⟨addrWord_toNat nnn, rfl⟩)

theorem exec_jpV0_pc (nnn : Addr) (s : State) :
    NextSat (fun t => t.pc.toNat = nnn.toNat + (s.getV 0x0).toNat ∧ t.report = .ok) (exec (.jpV0 nnn) s) :=
  nextSat_jumpTo ⟨jpV0_target_toNat nnn (s.getV 0x0), rfl⟩

theorem exec_ret_pc (z : Nibble) (s : State) :
    NextSat (fun t => ∃ a, s.stack.head? = some a ∧ t.pc = a + 2 ∧ t.report = .ok) (exec (.ret z) s) :=
  nextSat_popStack fun a _ held => nextSat_jumpTo ⟨a, by rw [held, List.head?_cons], rfl, rfl⟩

/-- Settles O49: one rule for each way an instruction can end. -/
theorem programCounterMovesByRule : Obligations.ProgramCounterMovesByRule := by
  intro i s t h
  refine ⟨fun kind goes => exec_endsWithNext kind goes t h, ?_, fun skip => exec_skip_pc s skip t h, ?_, ?_, ?_⟩
  · rintro x rfl up
    exact exec_ldVxK_waits x up t h
  · rintro nnn (rfl | rfl)
    · exact exec_jp_pc nnn s t h
    · exact exec_call_pc nnn s t h
  · rintro nnn rfl
    exact exec_jpV0_pc nnn s t h
  · rintro z rfl
    exact exec_ret_pc z s t h

end Sys2Proof.Machine
end

section
/-! What each instruction writes (40_flow, 41_skips, 42_alu, 43_index_memory section 1, 45_timers_keys section 2). The next state is found by running the
instruction, and what it keeps is the frame rule `everyInstructionKeepsItsFrame`; the proofs here are about the values written. -/

namespace Sys2Proof.Machine

/-! ## Flow (40_flow) -/

/-- Settles O11: SYS is `next` and nothing else. -/
theorem sysOnlyAdvances : Obligations.SysOnlyAdvances := fun nnn s =>
  ⟨_, rfl, rfl, rfl, everyInstructionKeepsItsFrame (.sys nnn) s _ rfl⟩

/-- Settles O12: the zero-extended target of JP, and the sum of JP V0, which does not wrap. -/
theorem jumpsLandOnTheirTarget : Obligations.JumpsLandOnTheirTarget := fun nnn s =>
  ⟨⟨_, rfl, addrWord_toNat nnn, rfl, everyInstructionKeepsItsFrame (.jp nnn) s _ rfl⟩,
    ⟨_, rfl, jpV0_target_toNat nnn (s.getV 0x0), rfl, everyInstructionKeepsItsFrame (.jpV0 nnn) s _ rfl⟩⟩

/-- Settles O13: the push has room, or it is the fatal outcome. -/
theorem callPushesItsOwnAddress : Obligations.CallPushesItsOwnAddress := by
  intro nnn s
  refine ⟨fun room => ?_, exec_call_full nnn⟩
  have called : exec (.call nnn) s = jumpTo (addrWord nnn) (s.setStack (s.pc :: s.stack)) := pushStack_room room
  exact ⟨_, called, rfl, addrWord_toNat nnn, rfl, everyInstructionKeepsItsFrame _ s _ called⟩

/-- Settles O14: the pop finds an entry, or it is the fatal outcome. -/
theorem retResumesAfterTheCall : Obligations.RetResumesAfterTheCall := by
  intro z s
  refine ⟨fun a below held => ?_, exec_ret_empty z⟩
  have returned : exec (.ret z) s = jumpTo (a + 2#16) (s.setStack below) := popStack_cons held
  exact ⟨_, returned, rfl, rfl, rfl, everyInstructionKeepsItsFrame _ s _ returned⟩

/-! ## Skips (41_skips) -/

/-- A skip answers with PC + 4 or PC + 2, by its own condition, and keeps everything else. -/
theorem exec_skip_next {i : Instr} (s : State) (skip : i.isSkip = true) (frame : i.changes = {}) :
    ∃ t, exec i s = .next t ∧ t.pc = s.pc + (if i.skipTaken s = true then 4 else 2) ∧ t.report = .ok ∧ KeptExcept {} s t := by
  have skipped : exec i s = skipIf (i.skipTaken s) s := exec_skip s skip
  exact ⟨_, skipped, rfl, rfl, frame ▸ everyInstructionKeepsItsFrame i s _ skipped⟩

/-- Settles O16: the condition of each of the two skips. -/
theorem byteSkipsAdvanceByFourOrTwo : Obligations.ByteSkipsAdvanceByFourOrTwo := by
  intro x nn s
  have se := exec_skip_next (i := .seVxNn x nn) s rfl rfl
  have sne := exec_skip_next (i := .sneVxNn x nn) s rfl rfl
  simp only [Instr.skipTaken, decide_eq_true_eq, ite_not] at se sne
  exact ⟨se, sne⟩

/-- Settles O17: the condition of each of the two skips. -/
theorem registerSkipsAdvanceByFourOrTwo : Obligations.RegisterSkipsAdvanceByFourOrTwo := by
  intro x y s
  have se := exec_skip_next (i := .seVxVy x y) s rfl rfl
  have sne := exec_skip_next (i := .sneVxVy x y) s rfl rfl
  simp only [Instr.skipTaken, decide_eq_true_eq, ite_not] at se sne
  exact ⟨se, sne⟩

/-- Settles O18: the condition of each of the two skips, on the key of the low nibble. -/
theorem keySkipsTestTheLowNibbleKey : Obligations.KeySkipsTestTheLowNibbleKey := by
  intro x s
  have skp := exec_skip_next (i := .skp x) s rfl rfl
  have sknp := exec_skip_next (i := .sknp x) s rfl rfl
  simp only [Instr.skipTaken, Bool.not_eq_true', ← Bool.not_eq_true, ite_not] at skp sknp
  exact ⟨skp, sknp⟩

/-! ## ALU (42_alu) -/

/-- Settles O19: the byte, or the value of VY, is what is written. -/
theorem registerLoadsWriteOnlyTheDestination : Obligations.RegisterLoadsWriteOnlyTheDestination := fun x y nn s =>
  ⟨⟨_, rfl, State.getV_setV_same s x nn, rfl, rfl, everyInstructionKeepsItsFrame (.ldVxNn x nn) s _ rfl⟩,
    ⟨_, rfl, State.getV_setV_same s x (s.getV y), rfl, rfl, everyInstructionKeepsItsFrame (.ldVxVy x y) s _ rfl⟩⟩

/-- Settles O20: one write, of the 8-bit sum, to VX. -/
theorem addByteWrapsWithoutFlag : Obligations.AddByteWrapsWithoutFlag := by
  intro x nn s
  refine ⟨_, rfl, ?_, fun ne => State.getV_setV_ne s _ ne.symm, rfl, rfl, everyInstructionKeepsItsFrame (.addVxNn x nn) s _ rfl⟩
  rw [State.finish_getV, State.getV_setV_same, BitVec.toNat_add]

/-- Settles O21: the written byte bit by bit. -/
theorem logicIsBitwiseWithoutFlag : Obligations.LogicIsBitwiseWithoutFlag := by
  intro x y s
  refine ⟨⟨_, rfl, fun k => ?_, rfl, rfl, everyInstructionKeepsItsFrame (.orVxVy x y) s _ rfl⟩,
    ⟨_, rfl, fun k => ?_, rfl, rfl, everyInstructionKeepsItsFrame (.andVxVy x y) s _ rfl⟩,
    ⟨_, rfl, fun k => ?_, rfl, rfl, everyInstructionKeepsItsFrame (.xorVxVy x y) s _ rfl⟩⟩
  · rw [State.finish_getV, State.getV_setV_same, BitVec.getLsbD_or]
  · rw [State.finish_getV, State.getV_setV_same, BitVec.getLsbD_and]
  · rw [State.finish_getV, State.getV_setV_same, BitVec.getLsbD_xor]

theorem State.getV_setFlagThen_result (s : State) (c : Bool) (x : Reg) (r : Byte) : (s.setFlagThen c x r).getV x = r := by
  rw [State.getV_setFlagThen, if_pos rfl]

/-- VF holds the flag unless it is the destination (42_alu R140). -/
theorem State.getV_setFlagThen_vF (s : State) (c : Bool) {x : Reg} (ne : x ≠ vF) (r : Byte) : (s.setFlagThen c x r).getV vF = flagByte c := by
  rw [State.getV_setFlagThen, if_neg ne.symm, if_pos rfl]

theorem flagByte_decide (p : Prop) [Decidable p] : flagByte (decide p) = if p then 1 else 0 := by
  simp [flagByte]

theorem flagByte_toNat (c : Bool) : (flagByte c).toNat = c.toNat := by
  cases c <;> rfl

/-- Settles O22: the 8-bit sum and the carry. -/
theorem addReportsTheCarry : Obligations.AddReportsTheCarry := by
  intro x y s
  refine ⟨_, rfl, ?_, fun ne => (State.getV_setFlagThen_vF s _ ne _).trans (flagByte_decide _), rfl, rfl,
    everyInstructionKeepsItsFrame (.addVxVy x y) s _ rfl⟩
  rw [State.finish_getV, State.getV_setFlagThen_result, BitVec.toNat_add]

/-- The 8-bit difference, written without a negative number. -/
theorem byte_sub_toNat (a b : Byte) : (a - b).toNat = (a.toNat + 256 - b.toNat) % 256 := by
  rw [BitVec.toNat_sub]
  omega

/-- Settles O23: the 8-bit difference and "no borrow", for both orders of the operands. -/
theorem subtractionsReportNoBorrow : Obligations.SubtractionsReportNoBorrow := by
  intro x y s
  refine ⟨⟨_, rfl, ?_, fun ne => (State.getV_setFlagThen_vF s _ ne _).trans (flagByte_decide _), rfl, rfl,
      everyInstructionKeepsItsFrame (.subVxVy x y) s _ rfl⟩,
    ⟨_, rfl, ?_, fun ne => (State.getV_setFlagThen_vF s _ ne _).trans (flagByte_decide _), rfl, rfl,
      everyInstructionKeepsItsFrame (.subnVxVy x y) s _ rfl⟩⟩
  · rw [State.finish_getV, State.getV_setFlagThen_result, byte_sub_toNat]
  · rw [State.finish_getV, State.getV_setFlagThen_result, byte_sub_toNat]

theorem shiftedOutRight_toNat (a : Byte) : (shiftedOutRight a).toNat = a.toNat % 2 := by
  rw [shiftedOutRight, BitVec.getLsbD, Nat.testBit_zero]
  rcases Nat.mod_two_eq_zero_or_one a.toNat with bit | bit <;> simp [bit]

theorem shiftedOutLeft_toNat (a : Byte) : (shiftedOutLeft a).toNat = a.toNat / 128 := by
  rw [shiftedOutLeft, BitVec.getLsbD, Nat.toNat_testBit]
  omega

/-- Settles O24: half or twice VX, and the bit that leaves at that end. -/
theorem shiftsReportTheBitShiftedOut : Obligations.ShiftsReportTheBitShiftedOut := by
  intro x y s
  refine ⟨⟨_, rfl, ?_, fun ne => ?_, rfl, rfl, everyInstructionKeepsItsFrame (.shrVx x y) s _ rfl⟩,
    ⟨_, rfl, ?_, fun ne => ?_, rfl, rfl, everyInstructionKeepsItsFrame (.shlVx x y) s _ rfl⟩⟩
  · rw [State.finish_getV, State.getV_setFlagThen_result, BitVec.toNat_ushiftRight, Nat.shiftRight_eq_div_pow, pow_one]
  · rw [State.finish_getV, State.getV_setFlagThen_vF s _ ne, flagByte_toNat, shiftedOutRight_toNat]
  · rw [State.finish_getV, State.getV_setFlagThen_result, BitVec.toNat_shiftLeft, Nat.shiftLeft_eq, pow_one, Nat.mul_comm]
  · rw [State.finish_getV, State.getV_setFlagThen_vF s _ ne, flagByte_toNat, shiftedOutLeft_toNat]

/-- Settles O25: the draw is the head of the fixed bytes, or the free value where there is none. -/
theorem randomByteIsMasked : Obligations.RandomByteIsMasked := by
  intro x nn s
  refine ⟨_, rfl, fun r rest fixed => ?_, fun free => ?_, rfl, rfl, rfl, rfl, everyInstructionKeepsItsFrame (.rnd x nn) s _ rfl⟩
  · rw [State.finish_getV, State.getV_setV_same, State.draw, fixed, List.headD_cons]
  · rw [State.finish_getV, State.getV_setV_same, State.draw, free, List.headD_nil]

/-! ## The index register (43_index_memory section 1) -/

theorem glyphAddr_toNat (v : Byte) : (glyphAddr v).toNat = 5 * (v.toNat % 16) := by
  rw [glyphAddr, BitVec.toNat_ofNat, lowNibble_toNat, Config.fontBase]
  omega

/-- Settles O27: the three values I can get. -/
theorem indexInstructionsWriteOnlyTheIndex : Obligations.IndexInstructionsWriteOnlyTheIndex := by
  intro nnn x s
  refine ⟨⟨_, rfl, addrWord_toNat nnn, rfl, rfl, everyInstructionKeepsItsFrame (.ldI nnn) s _ rfl⟩,
    ⟨_, rfl, ?_, rfl, rfl, everyInstructionKeepsItsFrame (.addIVx x) s _ rfl⟩,
    ⟨_, rfl, glyphAddr_toNat (s.getV x), rfl, rfl, everyInstructionKeepsItsFrame (.ldFVx x) s _ rfl⟩⟩
  rw [State.finish_i, State.setI_i, BitVec.toNat_add, byteWord_toNat]

/-! ## Timers and keys (45_timers_keys section 2) -/

/-- Settles O36: three copies of one byte. -/
theorem timerMovesCopyOneByte : Obligations.TimerMovesCopyOneByte := fun x s =>
  ⟨⟨_, rfl, State.getV_setV_same s x s.dt, rfl, rfl, everyInstructionKeepsItsFrame (.ldVxDt x) s _ rfl⟩,
    ⟨_, rfl, rfl, rfl, rfl, everyInstructionKeepsItsFrame (.ldDtVx x) s _ rfl⟩,
    ⟨_, rfl, rfl, rfl, rfl, everyInstructionKeepsItsFrame (.ldStVx x) s _ rfl⟩⟩

/-- FX0A with a key found by the scan stores its number. -/
theorem exec_ldVxK_down {s : State} {x : Reg} {k : Nibble} (found : firstKeyDown s = some k) :
    exec (.ldVxK x) s = advance (s.setV x (nibbleByte k)) := by
  change execLdVxK x s = _
  rw [execLdVxK, found]

/-- Settles O37: some key is down, so the scan finds the lowest one. -/
theorem keyWaitStoresTheLowestKey : Obligations.KeyWaitStoresTheLowestKey := by
  rintro x s ⟨j, hj, down⟩
  obtain ⟨k, found⟩ : ∃ k, firstKeyDown s = some k := by
    refine Option.ne_none_iff_exists'.mp fun none_down => ?_
    rw [firstKeyDown_eq_none_iff_keys.mp none_down, BitVec.ofNat_eq_ofNat, BitVec.getLsbD_zero] at down
    cases down
  obtain ⟨isDown, lowest⟩ := firstKeyDown_eq_some.mp found
  have next := exec_ldVxK_down (x := x) found
  refine ⟨_, next, ?_, fun j below => ?_, rfl, rfl, everyInstructionKeepsItsFrame (.ldVxK x) s _ next⟩
  · rw [State.finish_getV, State.getV_setV_same, nibbleByte_toNat]
    exact isDown
  · rw [State.finish_getV, State.getV_setV_same, nibbleByte_toNat] at below
    have up := lowest (BitVec.ofNat 4 j) (by rw [BitVec.toNat_ofNat]; omega)
    rwa [isDown_ofNat s (by omega)] at up

end Sys2Proof.Machine
end

section
/-! The stores through I (43_index_memory R173, R174): the bytes they leave, what the load of registers and the fetch read of them (20_memory section 7), and
the obligations that rest on them. -/

namespace Sys2Proof.Machine

/-! ## The bytes of a row of writes -/

/-- Byte `k` of a row of writes. -/
theorem Memory.read_writeBytes_inside {m : Memory} (wf : Memory.wf m) (a : Nat) {bs : List Byte} {k : Nat} {b : Byte}
    (kth : bs[k]? = some b) : Memory.read (Memory.writeBytes m a bs) (a + k) = b := by
  rw [Memory.read_writeBytes wf.1, if_pos (Nat.le_add_right a k), Nat.add_sub_cancel_left, kth, Option.getD_some]

/-- A byte before or after a row of writes. -/
theorem Memory.read_writeBytes_outside {m : Memory} (wf : Memory.wf m) {a x : Nat} {bs : List Byte} (outside : x < a ∨ a + bs.length ≤ x) :
    Memory.read (Memory.writeBytes m a bs) x = Memory.read m x := by
  rw [Memory.read_writeBytes wf.1]
  rcases outside with before | after
  · rw [if_neg (by omega)]
  · rw [if_pos (by omega), List.getElem?_eq_none (by omega), Option.getD_none]

/-! ## FX33 -/

theorem inRange_three (a : Word) : inRange a 3 ↔ a.toNat + 2 ≤ 0xFFF := by
  rw [inRange_iff]
  omega

theorem exec_ldBVx_inRange {s : State} (x : Reg) (range : s.i.toNat + 2 ≤ 0xFFF) :
    exec (.ldBVx x) s = advance (s.setMem (Memory.writeBytes s.mem s.i.toNat (decimalDigits (s.getV x)))) :=
  withAccess_inRange ((inRange_three s.i).mpr range)

theorem exec_ldBVx_outOfRange {s : State} (x : Reg) (past : 0xFFF < s.i.toNat + 2) :
    exec (.ldBVx x) s = .fault (.addressOutOfRange (BitVec.ofNat 16 (max s.i.toNat 0x1000)) .write s.pc) := by
  rw [← failAddr_eq]
  exact withAccess_outOfRange (mt (inRange_three s.i).mp past.not_ge)

/-- The three digits as numbers. -/
theorem decimalDigits_toNat (v : Byte) : ∃ a b c : Byte, decimalDigits v = [a, b, c] ∧ a.toNat ≤ 2 ∧ b.toNat ≤ 9 ∧ c.toNat ≤ 9 ∧
    v.toNat = 100 * a.toNat + 10 * b.toNat + c.toNat := by
  refine ⟨_, _, _, rfl, ?_⟩
  simp only [BitVec.toNat_ofNat]
  omega

/-- Settles O28: the digits are read back where they were written. -/
theorem decimalDigitsAreStored : Obligations.DecimalDigitsAreStored := by
  intro x s wf
  refine ⟨fun range => ?_, exec_ldBVx_outOfRange x⟩
  obtain ⟨a, b, c, digits, ha, hb, hc, value⟩ := decimalDigits_toNat (s.getV x)
  have stored := exec_ldBVx_inRange x range
  rw [digits] at stored
  have first : Memory.read (Memory.writeBytes s.mem s.i.toNat [a, b, c]) s.i.toNat = a := Memory.read_writeBytes_inside wf _ (k := 0) rfl
  have second : Memory.read (Memory.writeBytes s.mem s.i.toNat [a, b, c]) (s.i.toNat + 1) = b := Memory.read_writeBytes_inside wf _ rfl
  have third : Memory.read (Memory.writeBytes s.mem s.i.toNat [a, b, c]) (s.i.toNat + 2) = c := Memory.read_writeBytes_inside wf _ rfl
  refine ⟨_, stored, ?_, ?_, ?_, ?_, fun _ outside => ?_, rfl, rfl, everyInstructionKeepsItsFrame _ s _ stored⟩ <;>
    simp only [State.finish_mem, State.setMem_mem]
  · rwa [first]
  · rwa [second]
  · rwa [third]
  · rwa [first, second, third]
  · exact Memory.read_writeBytes_outside wf (by simp only [List.length_cons, List.length_nil]; omega)

/-! ## FX55 -/

/-- The bytes FX55 stores, V0 first. -/
def storedBytes (s : State) (x : Reg) : List Byte := (regsThrough x).map s.getV

theorem storedBytes_getElem? (s : State) {x k : Reg} (listed : k.toNat ≤ x.toNat) : (storedBytes s x)[k.toNat]? = some (s.getV k) := by
  rw [storedBytes, List.getElem?_map, regsThrough_getElem?, if_pos listed, Option.map_some]

theorem storedBytes_length (s : State) (x : Reg) : (storedBytes s x).length = x.toNat + 1 := by
  rw [storedBytes, List.length_map, regsThrough_length, regCount]

theorem exec_ldMemVx_inRange {s : State} {x : Reg} (range : s.i.toNat + x.toNat ≤ 0xFFF) :
    exec (.ldMemVx x) s =
      advance ((s.setMem (Memory.writeBytes s.mem s.i.toNat (storedBytes s x))).setI (indexAfterTransfer s x)) :=
  withAccess_inRange ((inRange_regCount s.i x).mpr range)

theorem exec_ldMemVx_outOfRange {s : State} {x : Reg} (past : 0xFFF < s.i.toNat + x.toNat) :
    exec (.ldMemVx x) s = .fault (.addressOutOfRange (BitVec.ofNat 16 (max s.i.toNat 0x1000)) .write s.pc) := by
  rw [← failAddr_eq]
  exact withAccess_outOfRange (mt (inRange_regCount s.i x).mp past.not_ge)

/-- An FX55 that completes passed its check. -/
theorem exec_ldMemVx_range {s t : State} {x : Reg} (h : exec (.ldMemVx x) s = .next t) : s.i.toNat + x.toNat ≤ 0xFFF :=
  (inRange_regCount s.i x).mp (withAccess_next h).1

/-- Settles O29: the registers are read back where they were written, and I is the one after the transfer. -/
theorem registersAreStored : Obligations.RegistersAreStored := by
  intro x s wf
  refine ⟨fun range => ?_, exec_ldMemVx_outOfRange⟩
  have stored := exec_ldMemVx_inRange range
  refine ⟨_, stored, fun k listed => Memory.read_writeBytes_inside wf _ (storedBytes_getElem? s listed), fun _ outside => ?_,
    indexAfterTransfer_toNat range, rfl, rfl, everyInstructionKeepsItsFrame _ s _ stored⟩
  exact Memory.read_writeBytes_outside wf (by rw [storedBytes_length]; omega)

/-- Where FX55 completed, the byte at I + k is Vk. -/
theorem exec_ldMemVx_read {s t : State} {x k : Reg} (wf : Memory.wf s.mem) (h : exec (.ldMemVx x) s = .next t) (listed : k.toNat ≤ x.toNat) :
    Memory.read t.mem (s.i.toNat + k.toNat) = s.getV k := by
  obtain ⟨u, stored, bytes, -⟩ := (registersAreStored x s wf).1 (exec_ldMemVx_range h)
  obtain rfl : u = t := by simpa [stored] using h
  exact bytes k listed

/-- Settles O31: the load reads the bytes the store wrote. -/
theorem storedRegistersLoadBack : Obligations.StoredRegistersLoadBack := by
  intro x s t u wf stored mem index
  have range : u.i.toNat + x.toNat ≤ 0xFFF := index ▸ exec_ldMemVx_range stored
  obtain ⟨v, loaded, regs, -⟩ := (registersAreLoaded x u).1 range
  refine ⟨v, loaded, fun k listed => ?_⟩
  rw [regs k listed, mem, index, exec_ldMemVx_read wf stored listed]

/-- Settles O32: the fetch reads the bytes the store wrote, which are in range because the store was. -/
theorem fetchSeesTheStore : Obligations.FetchSeesTheStore := by
  intro x k l s t wf stored next listed at_pc even
  have range : s.i.toNat + x.toNat ≤ 0xFFF := exec_ldMemVx_range stored
  have high : Memory.read t.mem t.pc.toNat = s.getV k := by rw [at_pc, exec_ldMemVx_read wf stored (by omega)]
  have low : Memory.read t.mem (t.pc.toNat + 1) = s.getV l := by
    rw [at_pc, Nat.add_assoc, next, exec_ldMemVx_read wf stored listed]
  refine ⟨wordOfBytes (s.getV k) (s.getV l), ?_, wordOfBytes_toNat _ _⟩
  rw [fetch_word even (by omega), high, low]

end Sys2Proof.Machine
end

section
/-! The screen (44_display R191 to R193): CLS, DRW as the inversion of the pixels under the sprite, the drawing that undoes itself, and the obligations that
rest on them. -/

namespace Sys2Proof.Machine

/-- Settles O33: the cleared frame. -/
theorem clsUnsetsEveryPixel : Obligations.ClsUnsetsEveryPixel := fun z s =>
  ⟨_, rfl, Frame.get_cleared, rfl, rfl, everyInstructionKeepsItsFrame (.cls z) s _ rfl⟩

/-! ## DRW -/

/-- The pixels DXYN inverts, in the order in which it does. -/
def drawnPixels (s : State) (x y : Reg) (n : Nibble) : List Pixel :=
  spritePixels (s.getV x) (s.getV y) 0 (spriteRows s.mem s.i n.toNat)

theorem spriteRows_length (m : Memory) (a : Word) (n : Nat) : (spriteRows m a n).length = n := by
  rw [spriteRows, List.length_map, List.length_range]

/-- The pixels DXYN inverts are those with a set sprite bit on them. -/
theorem mem_drawnPixels {s : State} {x y : Reg} {n : Nibble} {px : Fin Config.fbW} {py : Fin Config.fbH} :
    (px, py) ∈ drawnPixels s x y n ↔ drawsOn s x y n px py := by
  have column : ∀ col, wrapX (s.getV x) col = px ↔ ((s.getV x).toNat + col) % 64 = px.val := fun col => Fin.ext_iff
  have line : ∀ row, wrapY (s.getV y) (0 + row) = py ↔ ((s.getV y).toNat + row) % 32 = py.val := fun row => by
    rw [Nat.zero_add]
    exact Fin.ext_iff
  simp only [drawnPixels, mem_spritePixels, column, line, drawsOn, spriteRows, spriteBit, byteAddr,
    List.length_map, List.length_range, List.getElem_map, List.getElem_range, exists_prop, exists_and_left]

/-- A sprite has at most 15 rows, so no pixel is inverted twice. -/
theorem drawnPixels_nodup (s : State) (x y : Reg) (n : Nibble) : (drawnPixels s x y n).Nodup :=
  spritePixels_nodup _ _ _ _ (by rw [spriteRows_length]; omega)

/-- The frame DXYN leaves, and the collision it reports. -/
def drawing (s : State) (x y : Reg) (n : Nibble) : Frame × Bool := drawPixels (drawnPixels s x y n) (s.fb, false)

theorem get_drawing {s : State} {x y : Reg} {n : Nibble} {px : Fin Config.fbW} {py : Fin Config.fbH} :
    Frame.get (drawing s x y n).1 px py = true ↔ (Frame.get s.fb px py = true ↔ ¬ drawsOn s x y n px py) := by
  rw [drawing, (drawPixels_spec (drawnPixels_nodup s x y n) _).1, ← mem_drawnPixels]
  cases Frame.get s.fb px py <;> simp

theorem collision_drawing {s : State} {x y : Reg} {n : Nibble} :
    (drawing s x y n).2 = true ↔ ∃ px py, drawsOn s x y n px py ∧ Frame.get s.fb px py = true := by
  simp only [drawing, (drawPixels_spec (drawnPixels_nodup s x y n) _).2, Bool.false_or, List.any_eq_true, Prod.exists, mem_drawnPixels]

theorem exec_drw_inRange {s : State} {n : Nibble} (x y : Reg) (range : n.toNat = 0 ∨ s.i.toNat + n.toNat - 1 ≤ 0xFFF) :
    exec (.drw x y n) s = advance ((s.setFb (drawing s x y n).1).setV vF (flagByte (drawing s x y n).2)) := by
  have drawn : drawRows (s.getV x) (s.getV y) 0 (spriteRows s.mem s.i n.toNat) (s.fb, false) = drawing s x y n := drawRows_eq_drawPixels ..
  rw [← drawn]
  exact withAccess_inRange range

theorem exec_drw_outOfRange {s : State} {n : Nibble} (x y : Reg) (past : ¬ (n.toNat = 0 ∨ s.i.toNat + n.toNat - 1 ≤ 0xFFF)) :
    exec (.drw x y n) s = .fault (.addressOutOfRange (BitVec.ofNat 16 (max s.i.toNat 0x1000)) .read s.pc) := by
  rw [← failAddr_eq]
  exact withAccess_outOfRange past

/-- Settles O34: the frame and the flag of the drawing. -/
theorem drawXorsTheSpriteAndReportsCollision : Obligations.DrawXorsTheSpriteAndReportsCollision := by
  intro x y n s
  refine ⟨fun range => ?_, exec_drw_outOfRange x y⟩
  have drawn := exec_drw_inRange x y range
  refine ⟨_, drawn, fun _ _ => get_drawing, ?_, rfl, rfl, everyInstructionKeepsItsFrame _ s _ drawn⟩
  rw [← collision_drawing, State.finish_getV, State.getV_setV_same]
  cases (drawing s x y n).2 <;> simp [flagByte]

/-! ## Drawing twice -/

/-- Where a sprite lies depends on memory, I and the two coordinates only. -/
theorem drawsOn_congr {s u : State} {x y : Reg} {n : Nibble} (mem : u.mem = s.mem) (index : u.i = s.i) (column : u.getV x = s.getV x)
    (line : u.getV y = s.getV y) (px : Fin Config.fbW) (py : Fin Config.fbH) : drawsOn u x y n px py ↔ drawsOn s x y n px py := by
  rw [drawsOn, mem, index, column, line, drawsOn]

/-- Settles O35: the second drawing covers the same pixels, so each is inverted twice; a pixel under the sprite is set before the second drawing iff
it was unset before the first. -/
theorem drawingTwiceRestoresTheScreen : Obligations.DrawingTwiceRestoresTheScreen := by
  intro x y n s t u drew fb mem index column line
  have range : n.toNat = 0 ∨ s.i.toNat + n.toNat - 1 ≤ 0xFFF := (withAccess_next drew).1
  have same := drawsOn_congr (n := n) mem index column line
  obtain ⟨t', drew', once, -⟩ := (drawXorsTheSpriteAndReportsCollision x y n s).1 range
  obtain rfl : t' = t := by simpa [drew'] using drew
  obtain ⟨v, redrew, twice, flag, -⟩ := (drawXorsTheSpriteAndReportsCollision x y n u).1 (index ▸ range)
  have restored : ∀ px py, Frame.get v.fb px py = Frame.get s.fb px py := fun px py => by
    rw [Bool.eq_iff_iff, twice, same, fb, once]
    tauto
  have newly_set : ∀ px py, (drawsOn u x y n px py ∧ Frame.get u.fb px py = true) ↔
      (Frame.get s.fb px py = false ∧ Frame.get t'.fb px py = true) := fun px py => by
    rw [same, fb, once, ← Bool.not_eq_true]
    tauto
  refine ⟨v, redrew, Frame.ext_get restored, ?_⟩
  simp only [newly_set] at flag
  rcases flag with ⟨set, newly⟩ | ⟨unset, none_new⟩
  · exact iff_of_true set newly
  · exact iff_of_false (by rw [unset]; decide) none_new

end Sys2Proof.Machine
end

section
/-! Fatal outcomes (60_exceptions R230, R231, R235): which instructions can end in one and when, the step and its fetch checks, and the obligations that rest
on them. -/

namespace Sys2Proof.Machine

/-! ## Which instructions can fail -/

/-- The kinds the table of 60_exceptions R230 names as the raisers of a fatal outcome. -/
def mayFail : Instr → Bool
  | .call _ | .ret _ | .drw _ _ _ | .ldBVx _ | .ldMemVx _ | .ldVxMem _ => true
  | _ => false

/-- Every other kind completes in every state. -/
theorem exec_completes {i : Instr} (s : State) (safe : mayFail i = false) : ∃ t, exec i s = .next t := by
  cases i with
  | call _ | ret _ | drw _ _ _ | ldBVx _ | ldMemVx _ | ldVxMem _ => cases safe
  | ldVxK x =>
    cases found : firstKeyDown s with
    | none => exact ⟨_, exec_ldVxK_of_keys_eq_zero x (firstKeyDown_eq_none_iff_keys.mp found)⟩
    | some k => exact ⟨_, exec_ldVxK_down found⟩
  | _ => exact ⟨_, rfl⟩

theorem exec_ne_refused {i : Instr} {s : State} (safe : mayFail i = false) (ρ : Refusal) : exec i s ≠ .refused ρ := by
  obtain ⟨t, next⟩ := exec_completes s safe
  rw [next]
  nofun

theorem exec_ne_fault {i : Instr} {s : State} (safe : mayFail i = false) (f : Fault) : exec i s ≠ .fault f := by
  obtain ⟨t, next⟩ := exec_completes s safe
  rw [next]
  nofun

/-- `r` is never a refusal, and it is a fatal outcome exactly if `bad` holds, and then it is `e`. -/
def FailsExactlyIf (bad : Prop) (e : Fault) (r : Result) : Prop := (∀ ρ, r ≠ .refused ρ) ∧ ∀ f, r = .fault f ↔ bad ∧ f = e

theorem failsExactlyIf_of {bad : Prop} {e : Fault} {r : Result} (fails : bad → r = .fault e) (goes : ¬ bad → ∃ t, r = .next t) :
    FailsExactlyIf bad e r := by
  by_cases h : bad
  · simp [FailsExactlyIf, fails h, h, eq_comm]
  · obtain ⟨t, next⟩ := goes h
    simp [FailsExactlyIf, next, h]

theorem exec_call_fails (nnn : Addr) (s : State) : FailsExactlyIf (16 ≤ s.stack.length) (.stackOverflow s.pc) (exec (.call nnn) s) :=
  failsExactlyIf_of (fun full => pushStack_full full.not_gt) fun room => ⟨_, pushStack_room (not_le.mp room)⟩

theorem exec_ret_fails (z : Nibble) (s : State) : FailsExactlyIf (s.stack = []) (.stackUnderflow s.pc) (exec (.ret z) s) := by
  refine failsExactlyIf_of (exec_ret_empty z) fun held => ?_
  obtain ⟨a, below, cons⟩ := List.exists_cons_of_ne_nil held
  exact ⟨_, popStack_cons cons⟩

theorem exec_drw_fails (x y : Reg) (n : Nibble) (s : State) : FailsExactlyIf (0 < n.toNat ∧ 0xFFF < s.i.toNat + n.toNat - 1)
    (.addressOutOfRange (BitVec.ofNat 16 (max s.i.toNat 0x1000)) .read s.pc) (exec (.drw x y n) s) :=
  failsExactlyIf_of (fun _ => exec_drw_outOfRange x y (by omega)) fun _ => ⟨_, exec_drw_inRange x y (by omega)⟩

theorem exec_ldBVx_fails (x : Reg) (s : State) : FailsExactlyIf (0xFFF < s.i.toNat + 2)
    (.addressOutOfRange (BitVec.ofNat 16 (max s.i.toNat 0x1000)) .write s.pc) (exec (.ldBVx x) s) :=
  failsExactlyIf_of (exec_ldBVx_outOfRange x) fun range => ⟨_, exec_ldBVx_inRange x (not_lt.mp range)⟩

theorem exec_ldMemVx_fails (x : Reg) (s : State) : FailsExactlyIf (0xFFF < s.i.toNat + x.toNat)
    (.addressOutOfRange (BitVec.ofNat 16 (max s.i.toNat 0x1000)) .write s.pc) (exec (.ldMemVx x) s) :=
  failsExactlyIf_of exec_ldMemVx_outOfRange fun range => ⟨_, exec_ldMemVx_inRange (not_lt.mp range)⟩

theorem exec_ldVxMem_fails (x : Reg) (s : State) : FailsExactlyIf (0xFFF < s.i.toNat + x.toNat)
    (.addressOutOfRange (BitVec.ofNat 16 (max s.i.toNat 0x1000)) .read s.pc) (exec (.ldVxMem x) s) :=
  failsExactlyIf_of exec_ldVxMem_outOfRange fun range => ⟨_, exec_ldVxMem_inRange (not_lt.mp range)⟩

/-- Settles O10: one clause for each of the six kinds that can fail, and none for the others, which complete. -/
theorem instructionsFailExactlyAsListed : Obligations.InstructionsFailExactlyAsListed := by
  intro i s
  cases i with
  | call nnn =>
    obtain ⟨notRefused, fails⟩ := exec_call_fails nnn s
    exact ⟨notRefused, fun f => by simp [fails]⟩
  | ret z =>
    obtain ⟨notRefused, fails⟩ := exec_ret_fails z s
    exact ⟨notRefused, fun f => by simp [fails]⟩
  | drw x y n =>
    obtain ⟨notRefused, fails⟩ := exec_drw_fails x y n s
    refine ⟨notRefused, fun f => ?_⟩
    simp [fails, and_assoc]
  | ldBVx x =>
    obtain ⟨notRefused, fails⟩ := exec_ldBVx_fails x s
    exact ⟨notRefused, fun f => by simp [fails]⟩
  | ldMemVx x =>
    obtain ⟨notRefused, fails⟩ := exec_ldMemVx_fails x s
    exact ⟨notRefused, fun f => by simp [fails]⟩
  | ldVxMem x =>
    obtain ⟨notRefused, fails⟩ := exec_ldVxMem_fails x s
    exact ⟨notRefused, fun f => by simp [fails]⟩
  | _ => exact ⟨exec_ne_refused rfl, fun f => iff_of_false (exec_ne_fault rfl f) (by simp)⟩

/-- Whether and how an instruction fails depends on the PC, the stack and I only. -/
theorem exec_fault_congr {i : Instr} {s t : State} {f : Fault} (pc : t.pc = s.pc) (stack : t.stack = s.stack) (index : t.i = s.i) :
    exec i t = .fault f ↔ exec i s = .fault f := by
  rw [(instructionsFailExactlyAsListed i t).2, (instructionsFailExactlyAsListed i s).2, pc, stack, index]

/-! ## The step and its fetch -/

/-- Settles O6: the fetched word is the one that decodes to the instruction. -/
theorem stepRunsTheDecodedInstruction : Obligations.StepRunsTheDecodedInstruction := by
  intro s w i next even range bytes decoded
  exact ⟨(encodeOfDecodeIsTheWord w i decoded).1, step_of_fetch_instr next (fetch_eq_word even range bytes) decoded⟩

/-- A step whose fetch fails ends in that fatal outcome; taking it off `pending` does not change the fetch. -/
theorem step_of_fetch_fatal {s : State} {f : Fault} (next : s.nextAction = .step) (fails : fetch s = .fatal f) : step s = .fault f := by
  rw [step_of_step next]
  exact runInstr_fatal ((fetch_congr rfl rfl).trans fails)

/-- Settles O8: the two ways a fetch can fail. -/
theorem fetchChecksRangeThenAlignment : Obligations.FetchChecksRangeThenAlignment := fun _ next =>
  ⟨fun past => step_of_fetch_fatal next (fetch_outOfRange past), fun range odd => step_of_fetch_fatal next (fetch_misaligned range odd)⟩

/-- A word that ends in a fatal outcome does so in every state with the same PC, stack and I; an UNKNOWN word never does. -/
theorem execWord_fault_congr {w : Word} {s t : State} {f : Fault} (pc : t.pc = s.pc) (stack : t.stack = s.stack) (index : t.i = s.i)
    (h : execWord w s = .fault f) : execWord w t = .fault f := by
  unfold execWord at h ⊢
  cases decoded : decode w with
  | instr i =>
    rw [decoded] at h
    exact (exec_fault_congr pc stack index).mpr h
  | unknown u =>
    rw [decoded] at h
    cases h

/-- The state after a fatal outcome fetches as the state before did. -/
theorem fetch_afterFatal (f : Fault) (s : State) : fetch (afterFatal f s) = fetch s := by
  unfold afterFatal latchFetched
  split <;> exact fetch_congr rfl rfl

theorem afterFatal_of_fetch_fatal {s : State} {e : Fault} (f : Fault) (fails : fetch s = .fatal e) :
    afterFatal f s = { s.dequeued with report := .fatal f } := by
  have same : fetch s.dequeued = .fatal e := (fetch_congr rfl rfl).trans fails
  rw [afterFatal, latchFetched, same]

theorem afterFatal_of_fetch_word {s : State} {w : Word} (f : Fault) (fetched : fetch s = .word w) :
    afterFatal f s = { s.dequeued.latch w with report := .fatal f } := by
  have same : fetch s.dequeued = .word w := (fetch_congr rfl rfl).trans fetched
  rw [afterFatal, latchFetched, same]

/-- Settles O9: the two kinds of failing step, by whether the fetch answered a word. -/
theorem fatalOutcomeLeavesTheStateAndRecurs : Obligations.FatalOutcomeLeavesTheStateAndRecurs := by
  intro s f next failed
  cases fetched : fetch s with
  | fatal e =>
    have again : fetch (afterFatal f s) = .fatal e := (fetch_afterFatal f s).trans fetched
    have unfetchable : ¬ (s.pc.toNat % 2 = 0 ∧ s.pc.toNat ≤ 0xFFE) := fun ⟨even, range⟩ => by
      rw [fetch_word even range] at fetched
      cases fetched
    refine ⟨s.opcode, afterFatal_of_fetch_fatal f fetched, ?_, fun next' => ?_⟩
    · rw [if_neg unfetchable]
    · rw [step_of_fetch_fatal next' again, ← step_of_fetch_fatal next fetched, failed]
  | word w =>
    have again : fetch (afterFatal f s) = .word w := (fetch_afterFatal f s).trans fetched
    have left := afterFatal_of_fetch_word f fetched
    obtain ⟨even, range, bytes⟩ := fetch_word_inv fetched
    refine ⟨w, left, ?_, fun next' => ?_⟩
    · rw [if_pos ⟨even, range⟩, bytes, wordOfBytes_toNat]
    · rw [step_of_fetch next fetched] at failed
      rw [step_of_fetch next' again]
      exact execWord_fault_congr (by rw [left]; rfl) (by rw [left]; rfl) (by rw [left]; rfl) failed

/-! ## The halt loop (70_reset R269) -/

theorem halt_word (h : Addr) : 0x1000#16 ||| addrWord h = encode (.jp h) := by
  change 0x1000#16 ||| h.setWidth 16 = 0x1#4 ++ h
  rw [BitVec.append_def, BitVec.setWidth'_eq]
  rfl

/-- Settles O54: the word of the jump is fetched and jumps to its own address, where the next fetch reads it again. -/
theorem haltLoopIsAFixedPoint : Obligations.HaltLoopIsAFixedPoint := by
  rintro s h ⟨at_h, aligned, fetched⟩ next
  have decoded : decode (0x1000#16 ||| addrWord h) = .instr (.jp h) := by rw [halt_word, decode_encode rfl]
  have jumped : step s = jumpTo (addrWord h) (s.dequeued.latch (0x1000#16 ||| addrWord h)) := step_of_fetch_instr next fetched decoded
  refine ⟨_, jumped, by rw [← at_h]; rfl, rfl, aligned, ?_⟩
  rw [← fetched]
  exact fetch_congr at_h.symm rfl

end Sys2Proof.Machine
end

section
/-! Nested calls (40_flow section 3), and the fields no instruction, or only one, reads: the random source, the opcode latch, the sound timer (42_alu R152;
10_state R28, R29); the obligations that rest on them. -/

namespace Sys2Proof.Machine

/-! ## Frames of a sequence -/

theorem KeptExcept.trans {c : Changes} {s t u : State} (first : KeptExcept c s t) (second : KeptExcept c t u) : KeptExcept c s u := by
  obtain ⟨regs, index, memory, stack, delay, sound, screen, random, opcode, keys, params, pending⟩ := first
  obtain ⟨regs', index', memory', stack', delay', sound', screen', random', opcode', keys', params', pending'⟩ := second
  exact ⟨fun y other => (regs' y other).trans (regs y other), fun unnamed => (index' unnamed).trans (index unnamed),
    fun unnamed a => (memory' unnamed a).trans (memory unnamed a), fun unnamed => (stack' unnamed).trans (stack unnamed),
    fun unnamed => (delay' unnamed).trans (delay unnamed), fun unnamed => (sound' unnamed).trans (sound unnamed),
    fun unnamed => (screen' unnamed).trans (screen unnamed),
    fun unnamed => ⟨(random' unnamed).1.trans (random unnamed).1, (random' unnamed).2.trans (random unnamed).2⟩,
    opcode'.trans opcode, keys'.trans keys, params'.trans params, pending'.trans pending⟩

/-- The stack beside everything else. -/
theorem keptExcept_stack {s t : State} : KeptExcept {} s t ↔ KeptExcept { stack := true } s t ∧ t.stack = s.stack := by
  constructor
  · rintro ⟨regs, index, memory, stack, rest⟩
    exact ⟨⟨regs, index, memory, nofun, rest⟩, stack rfl⟩
  · rintro ⟨⟨regs, index, memory, -, rest⟩, stack⟩
    exact ⟨regs, index, memory, fun _ => stack, rest⟩

theorem execSeq_cons {i : Instr} {s t : State} (next : exec i s = .next t) (rest : List Instr) : execSeq (i :: rest) s = execSeq rest t := by
  rw [execSeq, next]

/-- Calls and as many returns come back with the stack as it was, whatever instructions follow. By induction on the calls: the first call and the last
return enclose those of the rest. -/
theorem execSeq_calls_returns (z : Nibble) (targets : List Addr) : ∀ (s : State) (rest : List Instr), s.stack.length + targets.length ≤ 16 →
    ∃ t, execSeq (targets.map Instr.call ++ (List.replicate targets.length (.ret z) ++ rest)) s = execSeq rest t ∧
      (targets ≠ [] → t.pc = s.pc + 2) ∧ t.stack = s.stack ∧ KeptExcept {} s t := by
  induction targets with
  | nil => exact fun s rest _ => ⟨s, rfl, fun h => absurd rfl h, rfl, (KeptExactly.refl {} s).1⟩
  | cons target targets inner =>
    intro s rest fits
    rw [List.length_cons] at fits
    obtain ⟨called, call, pushed, -, -, keptCall⟩ := (callPushesItsOwnAddress target s).1 (by omega)
    obtain ⟨back, nested, -, stack, keptInner⟩ := inner called (.ret z :: rest) (by rw [pushed, List.length_cons]; omega)
    obtain ⟨t, ret, popped, pc, -, keptRet⟩ := (retResumesAfterTheCall z back).1 s.pc s.stack (stack.trans pushed)
    refine ⟨t, ?_, fun _ => pc, popped, keptExcept_stack.mpr ⟨?_, popped⟩⟩
    · rw [List.map_cons, List.cons_append, execSeq_cons call, List.length_cons, List.replicate_succ', List.append_assoc,
        List.singleton_append, nested, execSeq_cons ret]
    · exact (keptCall.trans (keptExcept_stack.mp keptInner).1).trans keptRet

/-- Settles O15: the calls and returns with nothing after them. -/
theorem nestedCallsUnwind : Obligations.NestedCallsUnwind := by
  intro targets z s some_call fits
  obtain ⟨t, seq, pc, stack, kept⟩ := execSeq_calls_returns z targets s [] fits
  rw [List.append_nil] at seq
  exact ⟨t, seq, pc some_call, stack, kept⟩

/-! ## Fields that are hardly read -/

/-- The state with the random source, the opcode latch and the sound timer changed; `id` leaves a field as it is, a constant function replaces it. -/
def State.mapUnread (queue : List Byte → List Byte) (draws : Nat → Nat) (opcode : Word → Word) (sound : Byte → Byte) (s : State) : State :=
  { s with rngQueue := queue s.rngQueue, rngDraws := draws s.rngDraws, opcode := opcode s.opcode, st := sound s.st }

section
variable (queue : List Byte → List Byte) (draws : Nat → Nat) (opcode : Word → Word) (sound : Byte → Byte)

theorem loadRegs_mapUnread (s : State) (x : Reg) :
    loadRegs (s.mapUnread queue draws opcode sound) x = (loadRegs s x).mapUnread queue draws opcode sound :=
  List.foldl_hom (State.mapUnread queue draws opcode sound) fun _ _ => rfl

theorem execLdVxK_mapUnread (x : Reg) (s : State) :
    execLdVxK x (s.mapUnread queue draws opcode sound) = mapNext (State.mapUnread queue draws opcode sound) (execLdVxK x s) := by
  have scan : firstKeyDown (s.mapUnread queue draws opcode sound) = firstKeyDown s := rfl
  unfold execLdVxK
  rw [scan]
  cases firstKeyDown s with
  | none => rfl
  | some k => rfl

end

/-- Such a change commutes with an instruction, if it leaves alone the random source for RND and the sound timer for LD ST. -/
theorem exec_mapUnread {i : Instr} {queue : List Byte → List Byte} {draws : Nat → Nat} {opcode : Word → Word} {sound : Byte → Byte}
    (s : State) (noDraw : (∀ x nn, i ≠ .rnd x nn) ∨ queue = id ∧ draws = id) (noSound : (∀ x, i ≠ .ldStVx x) ∨ sound = id) :
    exec i (s.mapUnread queue draws opcode sound) = mapNext (State.mapUnread queue draws opcode sound) (exec i s) := by
  cases i with
  | rnd x nn =>
    obtain ⟨rfl, rfl⟩ := noDraw.resolve_left fun other => other x nn rfl
    rfl
  | ldStVx x =>
    obtain rfl := noSound.resolve_left fun other => other x rfl
    rfl
  | call _ => exact pushStack_mapNext rfl rfl rfl
  | ret _ => exact popStack_mapNext rfl rfl fun _ _ => rfl
  | drw _ _ _ | ldBVx _ | ldMemVx _ => exact withAccess_mapNext rfl rfl
  | ldVxMem x =>
    refine withAccess_mapNext rfl ?_
    rw [loadRegs_mapUnread]
    rfl
  | ldVxK x => exact execLdVxK_mapUnread queue draws opcode sound x s
  | _ => rfl

/-- Settles O26: the random source replaced, the other two fields left alone. -/
theorem onlyRndReadsTheRandomSource : Obligations.OnlyRndReadsTheRandomSource := fun _ s q d noDraw =>
  exec_mapUnread (queue := fun _ => q) (draws := fun _ => d) (opcode := id) (sound := id) s (.inl noDraw) (.inr rfl)

/-- Settles O52: the latch alone, or the sound timer alone, replaced; LD ST overwrites the timer before anything reads it. -/
theorem noInstructionReadsLatchOrSoundTimer : Obligations.NoInstructionReadsLatchOrSoundTimer := by
  intro i s
  refine ⟨fun w => ?_, fun b noSound => ?_, ?_⟩
  · exact exec_mapUnread (queue := id) (draws := id) (opcode := fun _ => w) (sound := id) s (.inr ⟨rfl, rfl⟩) (.inr rfl)
  · exact exec_mapUnread (queue := id) (draws := id) (opcode := id) (sound := fun _ => b) s (.inr ⟨rfl, rfl⟩) (.inl noSound)
  · rintro b x rfl
    rfl

end Sys2Proof.Machine
end

section
/-! The host's transactions beside the step (60_exceptions R240 to R248; 70_reset R260, R261; 10_state R34), and the obligations that rest on them. -/

namespace Sys2Proof.Machine

/-! ## Ticks -/

theorem ticks_st_toNat (n : Nat) (s : State) : (ticks n s).st.toNat = s.st.toNat - n := by
  induction n generalizing s with
  | zero => rfl
  | succ n ih =>
    have once : (tick s).st.toNat = s.st.toNat - 1 := countDown_toNat s.st
    rw [ticks, ih, once, Nat.sub_sub, Nat.add_comm]

theorem ticks_dt_toNat (n : Nat) (s : State) : (ticks n s).dt.toNat = s.dt.toNat - n := by
  induction n generalizing s with
  | zero => rfl
  | succ n ih =>
    have once : (tick s).dt.toNat = s.dt.toNat - 1 := countDown_toNat s.dt
    rw [ticks, ih, once, Nat.sub_sub, Nat.add_comm]

/-- The last of the ticks, singled out. -/
theorem ticks_succ (n : Nat) (s : State) : ticks (n + 1) s = tick (ticks n s) := by
  induction n generalizing s with
  | zero => rfl
  | succ n ih => rw [ticks, ih, ticks]

/-- Settles O40: the last tick reports a tone iff ST has come down to 1 before it. -/
theorem toneIsDueOnceOnTheVthTick : Obligations.ToneIsDueOnceOnTheVthTick := by
  intro n s positive
  refine ⟨?_, ticks_st_toNat n s, ticks_dt_toNat n s⟩
  obtain ⟨before, rfl⟩ : ∃ before, n = before + 1 := ⟨n - 1, by omega⟩
  have due : (ticks before s).st.toNat = 1 ↔ before + 1 = s.st.toNat := by
    rw [ticks_st_toNat]
    omega
  rw [ticks_succ, tick_report, decide_eq_decide.mpr due]

/-! ## Reset and load -/

/-- An address from 0x050 on holds 0 after reset. -/
theorem fontMemory_read_of_le (font : Vector Byte Config.fontSize) {a : Nat} (h : 80 ≤ a) : Memory.read (fontMemory font) a = 0 := by
  rw [fontMemory_read, dif_neg h.not_gt]

theorem fontMemory_read_font (font : Vector Byte Config.fontSize) (a : Fin 80) : Memory.read (fontMemory font) a.val = font[a] := by
  rw [fontMemory_read, dif_pos a.isLt]
  rfl

/-- Memory lists nothing in `State.reset`, which reads as memory after a reset with the default FONT. -/
theorem State.reset_read (a : Nat) : Memory.read State.reset.mem a = Memory.read (fontMemory defaultFont) a := by
  rw [fontMemory_read]
  change (defaultFont.toList[a]?).getD 0 = _
  by_cases h : a < 80 <;> simp [h]

theorem resetCore_getV (s : State) (y : Reg) : (resetCore s).getV y = 0 := by
  simp [State.getV, resetCore]

/-- Settles O41: the bytes of memory, the registers and the pixels; every other field is read off the record. -/
theorem resetStateHoldsTheResetValues : Obligations.ResetStateHoldsTheResetValues :=
  ⟨fun a => (State.reset_read a).trans (fontMemory_read_font defaultFont a),
    fun a h => (State.reset_read a).trans (fontMemory_read_of_le defaultFont h),
    State.reset_getV, rfl, rfl, rfl, rfl, rfl, rfl, Frame.get_cleared, rfl, rfl, rfl, rfl, rfl, rfl, rfl⟩

/-- A move that is not a step, as the host's transaction. -/
theorem step_of_action {s : State} {a : HostAction} (next : s.nextAction = a) : step s = hostAct a s.dequeued := by rw [step, next]

/-- Settles O42: the reset of the dequeued state. -/
theorem hostResetRestoresTheArchitecturalState : Obligations.HostResetRestoresTheArchitecturalState := fun s next =>
  ⟨resetCore s.dequeued, step_of_action next, fontMemory_read_font s.params.font, fun _ h => fontMemory_read_of_le s.params.font h,
    resetCore_getV s.dequeued, rfl, rfl, rfl, rfl, rfl, rfl, rfl, rfl, rfl, rfl, rfl, rfl⟩

theorem loadRom_tooLarge {rom : List Byte} {s : State} (large : 3584 < rom.length) : loadRom rom s = { s with report := .romTooLarge } :=
  if_pos large

/-- A load that is accepted is a reset with the ROM written over memory. -/
theorem loadRom_fits {rom : List Byte} {s : State} (fits : rom.length ≤ 3584) : loadRom rom s =
    { resetCore s with mem := Memory.writeBytes (fontMemory s.params.font) 0x200 rom, report := .loadOk } :=
  if_neg fits.not_gt

/-- Settles O43: the bytes of memory after the load; every other field is that of a reset. -/
theorem loadCopiesTheRomOrRejectsIt : Obligations.LoadCopiesTheRomOrRejectsIt := by
  intro s rom next
  have loaded : step s = .next (loadRom rom s.dequeued) := step_of_action next
  refine ⟨fun large => ?_, fun fits => ?_⟩
  · rw [loaded, loadRom_tooLarge large]
    rfl
  · have wf := fontMemory_wf s.params.font
    rw [loadRom_fits fits] at loaded
    refine ⟨_, loaded, rfl, fun k => ?_, fun a => ?_, fun a font outside => ?_, resetCore_getV s, rfl, rfl, rfl, rfl, rfl, rfl, rfl, rfl, rfl,
      rfl, rfl, rfl⟩
    · exact Memory.read_writeBytes_inside wf 0x200 (List.getElem?_eq_getElem k.isLt)
    · exact (Memory.read_writeBytes_outside wf (.inl (by omega))).trans (fontMemory_read_font s.params.font a)
    · exact (Memory.read_writeBytes_outside wf outside).trans (fontMemory_read_of_le s.params.font font)

/-! ## Snapshots -/

theorem restoreSnapshot_of_wf {snap : Snapshot} {s : State} (wf : Snapshot.wf snap) :
    restoreSnapshot snap s = .next { s.restored snap with report := .done } := if_pos wf

/-- Settles O44: the invariant of the saved state is what a restore checks. -/
theorem snapshotsRoundTrip : Obligations.SnapshotsRoundTrip :=
  ⟨fun _ next => step_of_action next, fun _ _ inv next => (step_of_action next).trans (restoreSnapshot_of_wf inv)⟩

end Sys2Proof.Machine
end

section
/-! What every transaction of the machine keeps (20_memory R50; 10_state R25, R26, R32): the two invariants, the arguments and the list of planned
transactions, each first over one instruction, then over one transaction of the host; the obligations that rest on them. -/

namespace Sys2Proof.Machine

/-! ## The arguments and the planned transactions -/

/-- An instruction changes neither the arguments nor the planned transactions: the last two clauses of its frame. -/
theorem exec_params_pending {i : Instr} {s t : State} (h : exec i s = .next t) : t.params = s.params ∧ t.pending = s.pending := by
  obtain ⟨-, -, -, -, -, -, -, -, -, -, params, pending⟩ := everyInstructionKeepsItsFrame i s t h
  exact ⟨params, pending⟩

theorem loadRom_params_pending (rom : List Byte) (s : State) : (loadRom rom s).params = s.params ∧ (loadRom rom s).pending = s.pending := by
  unfold loadRom
  split
  · exact ⟨rfl, rfl⟩
  · exact ⟨rfl, rfl⟩

/-- If a restore answers a next state, the snapshot was one of this machine and its fields are that state's. -/
theorem restoreSnapshot_next {snap : Snapshot} {s t : State} (h : restoreSnapshot snap s = .next t) :
    Snapshot.wf snap ∧ t = { s.restored snap with report := .done } := by
  by_cases wf : Snapshot.wf snap
  · rw [restoreSnapshot_of_wf wf] at h
    cases h
    exact ⟨wf, rfl⟩
  · rw [restoreSnapshot, if_neg wf] at h
    cases h

theorem hostAct_params_pending {a : HostAction} {s t : State} (h : hostAct a s = .next t) :
    t.params = s.params ∧ t.pending = s.pending := by
  cases a with
  | step =>
    obtain ⟨w, -, ⟨i, -, run⟩ | ⟨-, rfl⟩⟩ := runInstr_next h
    · exact exec_params_pending (s := s.latch w) run
    · exact ⟨rfl, rfl⟩
  | load rom =>
    cases h
    exact loadRom_params_pending rom s
  | restore snap =>
    obtain ⟨-, rfl⟩ := restoreSnapshot_next h
    exact ⟨rfl, rfl⟩
  | _ =>
    cases h
    exact ⟨rfl, rfl⟩

/-- Settles O53: the transaction acts on the dequeued state, which has the same arguments. -/
theorem noTransactionChangesTheArguments : Obligations.NoTransactionChangesTheArguments := fun _ _ h => (hostAct_params_pending h).1

/-! ## Canonical memory and the depth of the stack -/

/-- An instruction keeps memory in canonical form: the stores check their range before they write, the others leave memory alone. -/
theorem exec_mem_wf {i : Instr} {s t : State} (wf : Memory.wf s.mem) (h : exec i s = .next t) : Memory.wf t.mem := by
  cases i with
  | ldBVx x =>
    obtain ⟨inside, next⟩ := withAccess_next h
    have range : s.i.toNat + 2 ≤ 0xFFF := (inRange_three s.i).mp inside
    cases next
    exact Memory.writeBytes_wf (.inr (by simp [byteAddr, decimalDigits]; omega)) wf
  | ldMemVx x =>
    have range := exec_ldMemVx_range h
    rw [exec_ldMemVx_inRange range] at h
    cases h
    exact Memory.writeBytes_wf (.inr (by rw [storedBytes_length, Config.memSize]; omega)) wf
  | _ => exact exec_keeps_mem rfl h ▸ wf

theorem loadRom_inv {s : State} (rom : List Byte) (inv : s.Inv) : (loadRom rom s).Inv := by
  refine ⟨loadRom_mem_wf inv.1, ?_⟩
  unfold loadRom
  split
  · exact inv.2
  · exact Nat.zero_le _

theorem hostAct_inv {a : HostAction} {s t : State} (inv : s.Inv) (h : hostAct a s = .next t) : t.Inv := by
  cases a with
  | step =>
    obtain ⟨w, -, ⟨i, -, run⟩ | ⟨-, rfl⟩⟩ := runInstr_next h
    · exact ⟨exec_mem_wf (s := s.latch w) inv.1 run, exec_stack_length_le (s := s.latch w) inv.2 run⟩
    · exact inv
  | reset =>
    cases h
    exact ⟨fontMemory_wf _, Nat.zero_le _⟩
  | load rom =>
    cases h
    exact loadRom_inv rom inv
  | restore snap =>
    obtain ⟨wf, rfl⟩ := restoreSnapshot_next h
    exact wf
  | _ =>
    cases h
    exact inv

/-- Settles O45: the transaction acts on the dequeued state, which has the same memory and stack. -/
theorem everyStepKeepsTheInvariant : Obligations.EveryStepKeepsTheInvariant := fun s _ inv h => hostAct_inv (s := s.dequeued) inv h

/-! ## Reachable addresses -/

theorem add_two_toNat {a : Word} (range : a.toNat ≤ 0xFFE) : (a + 2).toNat = a.toNat + 2 := by
  rw [BitVec.toNat_add]
  exact Nat.mod_eq_of_lt (show a.toNat + 2 < 65536 by omega)

theorem add_four_toNat {a : Word} (range : a.toNat ≤ 0xFFE) : (a + 4).toNat = a.toNat + 4 := by
  rw [BitVec.toNat_add]
  exact Nat.mod_eq_of_lt (show a.toNat + 4 < 65536 by omega)

/-- After an instruction at a fetchable address the PC is at most 0x10FE, which only JP V0 can reach (10_state R25). -/
theorem exec_pc_le {i : Instr} {s t : State} (fetched : fetchable s.pc) (returns : ∀ a ∈ s.stack, fetchable a) (h : exec i s = .next t) :
    t.pc.toNat ≤ 0x10FE := by
  have range : s.pc.toNat ≤ 0xFFE := fetched.2
  obtain ⟨next, waits, skips, jumps, jumpsV0, rets⟩ := programCounterMovesByRule i s t h
  have advanced : t.pc = s.pc + 2 → t.pc.toNat ≤ 0x10FE := fun pc => by
    rw [pc, add_two_toNat range]
    omega
  cases i with
  | jp nnn =>
    have target := (jumps nnn (.inl rfl)).1
    omega
  | call nnn =>
    have target := (jumps nnn (.inr rfl)).1
    omega
  | jpV0 nnn =>
    have target := (jumpsV0 nnn rfl).1
    omega
  | ret z =>
    obtain ⟨a, top, pc, -⟩ := rets z rfl
    have popped : a.toNat ≤ 0xFFE := (returns a (List.mem_of_head? top)).2
    rw [pc, add_two_toNat popped]
    omega
  | seVxNn _ _ | sneVxNn _ _ | seVxVy _ _ | sneVxVy _ _ | skp _ | sknp _ =>
    obtain ⟨pc, -⟩ := skips rfl
    split at pc
    · rw [pc, add_four_toNat range]
      omega
    · exact advanced pc
  | ldVxK x =>
    by_cases up : s.keys = 0
    · rw [(waits x rfl up).1]
      omega
    · exact advanced (next rfl fun _ _ => up).1
  | _ => exact advanced (next rfl nofun).1

/-- An instruction at a fetchable address keeps the return addresses fetchable: the one it may push is its own. -/
theorem exec_returns_fetchable {i : Instr} {s t : State} (fetched : fetchable s.pc) (returns : ∀ a ∈ s.stack, fetchable a)
    (h : exec i s = .next t) : ∀ a ∈ t.stack, fetchable a := by
  obtain ⟨kept, -, -⟩ | ⟨-, -, -, pushed⟩ | ⟨-, top, -, popped⟩ := exec_stack_cases h
  · rwa [kept]
  · rw [pushed]
    exact List.forall_mem_cons.mpr ⟨fetched, returns⟩
  · rw [popped] at returns
    exact (List.forall_mem_cons.mp returns).2

theorem resetPc_reachable : pcReachable Config.resetPc [] := ⟨by decide, nofun⟩

theorem loadRom_pcReachable {s : State} (rom : List Byte) (inv : pcReachable s.pc s.stack) :
    pcReachable (loadRom rom s).pc (loadRom rom s).stack := by
  unfold loadRom
  split
  · exact inv
  · exact resetPc_reachable

theorem hostAct_pcReachable {a : HostAction} {s t : State} (inv : pcReachable s.pc s.stack)
    (planned : ∀ snap, a = .restore snap → pcReachable snap.pc snap.stack) (h : hostAct a s = .next t) : pcReachable t.pc t.stack := by
  cases a with
  | step =>
    obtain ⟨w, fetched, ran⟩ := runInstr_next h
    obtain ⟨even, range, -⟩ := fetch_word_inv fetched
    obtain ⟨i, -, run⟩ | ⟨-, rfl⟩ := ran
    · exact ⟨exec_pc_le (s := s.latch w) ⟨even, range⟩ inv.2 run, exec_returns_fetchable (s := s.latch w) ⟨even, range⟩ inv.2 run⟩
    · refine ⟨?_, inv.2⟩
      have passed : (s.pc + 2#16).toNat = s.pc.toNat + 2 := add_two_toNat range
      change (s.pc + 2#16).toNat ≤ 0x10FE
      omega
  | reset =>
    cases h
    exact resetPc_reachable
  | load rom =>
    cases h
    exact loadRom_pcReachable rom inv
  | restore snap =>
    obtain ⟨-, rfl⟩ := restoreSnapshot_next h
    exact planned snap rfl
  | _ =>
    cases h
    exact inv

/-- A transaction other than the step the host has not asked for comes from the list. -/
theorem mem_pending_of_nextAction {s : State} {a : HostAction} (next : s.nextAction = a) (planned : a ≠ .step) : a ∈ s.pending := by
  subst next
  unfold State.nextAction at planned ⊢
  cases plan : s.pending with
  | nil =>
    rw [plan] at planned
    exact absurd rfl planned
  | cons b rest => exact List.mem_cons_self

/-- Settles O46: a snapshot restored now was planned before, and one still planned afterwards was planned before. -/
theorem everyStepKeepsAddressesReachable : Obligations.EveryStepKeepsAddressesReachable := by
  rintro s t ⟨inv, planned⟩ h
  refine ⟨hostAct_pcReachable (s := s.dequeued) inv ?_ h, fun snap later => planned snap ?_⟩
  · exact fun snap next => planned snap (mem_pending_of_nextAction next nofun)
  · rw [(hostAct_params_pending h).2] at later
    exact List.mem_of_mem_tail later

/-- Settles O47: memory lists nothing, the stack is empty and no transaction is planned. -/
theorem resetMeetsTheInvariants : Obligations.ResetMeetsTheInvariants :=
  ⟨⟨State.reset_mem_wf, Nat.zero_le _⟩, resetPc_reachable, nofun⟩

end Sys2Proof.Machine
end
